-- ==== Sys2Proof/Word.lean ====
section
/-! DEFINITION. The widths of the block's words (spec 00_scope.md R8, 30_encoding.md R70, R80). -/

namespace Sys2Proof

/-- One byte, `u8` of R9. -/
abbrev Byte := BitVec 8

/-- The ChecksumEngine's register, CRC_WIDTH of R8. -/
abbrev Crc16 := BitVec 16

/-- A message id, MSGID_WIDTH of R8. -/
abbrev MsgId := BitVec 24

/-- A command word, CMD_WIDTH of R8. -/
abbrev CommandWord := BitVec 80

/-- A response word, RSP_WIDTH of R8. -/
abbrev ResponseWord := BitVec 32

end Sys2Proof
end

