-- ==== Sys2Proof/Syntax.lean ====
section
/-! DEFINITION. The command set, whole: one constructor per row of spec/opcode_table.json (30_encoding.md R71), the operand
fields as R73 to R78 give them. -/

namespace Sys2Proof

/-- The checksum mode of an encode (R30, R83): MODE = 0 is Plain, MODE = 1 is SeededCrc. -/
inductive CrcMode
  | plain
  | seeded
  deriving DecidableEq, Repr

/-- The MODE bit of R83. -/
def CrcMode.bit : CrcMode → BitVec 1
  | .plain => 0#1
  | .seeded => 1#1

/-- The mode a MODE bit selects (R83). -/
def CrcMode.ofBit (b : BitVec 1) : CrcMode := if b = 1#1 then .seeded else .plain

/-- The eleven wire types in the order of R79. -/
inductive WireType
  | uint8 | int8 | uint16 | int16 | uint32 | int32 | uint64 | int64 | float32 | float64 | char
  deriving DecidableEq, Repr

/-- The seven commands (R71). -/
inductive Instr
  /-- INIT, format I (R74). -/
  | init (sysid compid : Byte)
  /-- BEGIN, format B (R75). -/
  | beginEncode (known : Bool) (mode : CrcMode) (msgid : MsgId)
  /-- FIELD, format F (R76). WT stays the 4-bit code: codes 11 to 15 are legal encodings that raise an error (R79, R86).
  VALUE is the 65-bit two's-complement field (R84). -/
  | field (wt : BitVec 4) (present empty : Bool) (value : BitVec 65)
  /-- END, format Z (R73). -/
  | endEncode
  /-- CRCINIT, format Z (R73). -/
  | crcInit
  /-- CRCBYTE, format C (R77). -/
  | crcByte (b : Byte)
  /-- RDREG, format R (R78). REG has 4 bits, of which 0 to 7 are assigned (R33). -/
  | rdReg (reg : BitVec 4)
  deriving DecidableEq, Repr

end Sys2Proof
end

