-- ==== Sys2Proof/WellFormed.lean ====
section
/-! DEFINITION. Which instruction terms stand for a legal command word (30_encoding.md R86). Every operand but REG is legal at
every value of its field; REG 8 to 15 are unassigned. -/

namespace Sys2Proof

/-- R86: the only operand check of the encoding is that RDREG's register number is 0 to 7. -/
def Instr.wf : Instr → Bool
  | .init _ _ => true
  | .beginEncode _ _ _ => true
  | .field _ _ _ _ => true
  | .endEncode => true
  | .crcInit => true
  | .crcByte _ => true
  | .rdReg reg => decide (reg.toNat < 8)

end Sys2Proof
end

