-- ==== Sys2Proof/Decode.lean ====
section
/-! DEFINITION. Decoding of an 80-bit command word (30_encoding.md R70 to R78, R86), total, each illegal word refused by name; then the
encoder, written from the same format tables. -/

namespace Sys2Proof

/-- Why a word is illegal (R86). The machine answers all of them with IllegalCommand (R208). -/
inductive IllegalWord
  /-- OP is 0x0 or 0x8 to 0xF (R71). -/
  | reservedOpcode (op : BitVec 4)
  /-- A bit that the command's format marks "zero" is 1 (R72). -/
  | nonzeroZeroBits (mnemonic : String)
  /-- RDREG with REG 8 to 15 (R78). -/
  | unassignedRegister (reg : BitVec 4)
  deriving DecidableEq, Repr

/-- `w[lo + len - 1 : lo]`, the slice notation of R9. -/
def slice (lo len : Nat) (w : CommandWord) : BitVec len := w.extractLsb' lo len

/-- The one-bit field `w[i]` as a truth value. -/
def flagAt (i : Nat) (w : CommandWord) : Bool := decide (slice i 1 w = 1#1)

/-- Format I (R74): bits 75:16 zero, SYSID 15:8, COMPID 7:0. -/
def decodeInit (w : CommandWord) : Except IllegalWord Instr :=
  if slice 16 60 w = 0#60 then .ok (.init (slice 8 8 w) (slice 0 8 w)) else .error (.nonzeroZeroBits "INIT")

/-- Format B (R75): bits 75:26 zero, KNOWN 25, MODE 24, MSGID 23:0. -/
def decodeBegin (w : CommandWord) : Except IllegalWord Instr :=
  if slice 26 50 w = 0#50 then .ok (.beginEncode (flagAt 25 w) (CrcMode.ofBit (slice 24 1 w)) (slice 0 24 w))
  else .error (.nonzeroZeroBits "BEGIN")

/-- Format F (R76): WT 75:72, PRESENT 71, EMPTY 70, bits 69:65 zero, VALUE 64:0. -/
def decodeField (w : CommandWord) : Except IllegalWord Instr :=
  if slice 65 5 w = 0#5 then .ok (.field (slice 72 4 w) (flagAt 71 w) (flagAt 70 w) (slice 0 65 w))
  else .error (.nonzeroZeroBits "FIELD")

/-- Format Z (R73), END: bits 75:0 zero. -/
def decodeEnd (w : CommandWord) : Except IllegalWord Instr :=
  if slice 0 76 w = 0#76 then .ok .endEncode else .error (.nonzeroZeroBits "END")

/-- Format Z (R73), CRCINIT: bits 75:0 zero. -/
def decodeCrcInit (w : CommandWord) : Except IllegalWord Instr :=
  if slice 0 76 w = 0#76 then .ok .crcInit else .error (.nonzeroZeroBits "CRCINIT")

/-- Format C (R77): bits 75:8 zero, BYTE 7:0. -/
def decodeCrcByte (w : CommandWord) : Except IllegalWord Instr :=
  if slice 8 68 w = 0#68 then .ok (.crcByte (slice 0 8 w)) else .error (.nonzeroZeroBits "CRCBYTE")

/-- Format R (R78): bits 75:4 zero, REG 3:0, of which 8 to 15 are unassigned. -/
def decodeRdReg (w : CommandWord) : Except IllegalWord Instr :=
  if slice 4 72 w = 0#72 then
    if (slice 0 4 w).toNat < 8 then .ok (.rdReg (slice 0 4 w)) else .error (.unassignedRegister (slice 0 4 w))
  else .error (.nonzeroZeroBits "RDREG")

/-- The opcode map of R71: OP is bits 79:76, and decoding depends on OP alone (R87). -/
def decode (w : CommandWord) : Except IllegalWord Instr :=
  match (slice 76 4 w).toNat with
  | 1 => decodeInit w
  | 2 => decodeBegin w
  | 3 => decodeField w
  | 4 => decodeEnd w
  | 5 => decodeCrcInit w
  | 6 => decodeCrcByte w
  | 7 => decodeRdReg w
  | _ => .error (.reservedOpcode (slice 76 4 w))

/-- A one-bit field from a truth value. -/
def flagBit (b : Bool) : BitVec 1 := BitVec.ofBool b

/-- The word of an instruction, most significant field first as R73 to R78 list them. -/
def encode : Instr → CommandWord
  | .init sysid compid => 0x1#4 ++ 0#60 ++ sysid ++ compid
  | .beginEncode known mode msgid => 0x2#4 ++ 0#50 ++ flagBit known ++ mode.bit ++ msgid
  | .field wt present empty value => 0x3#4 ++ wt ++ flagBit present ++ flagBit empty ++ 0#5 ++ value
  | .endEncode => 0x4#4 ++ 0#76
  | .crcInit => 0x5#4 ++ 0#76
  | .crcByte b => 0x6#4 ++ 0#68 ++ b
  | .rdReg reg => 0x7#4 ++ 0#72 ++ reg

/-- The decoder on a number, bit 0 the least significant bit of the word. The command port is 80 bits wide and a
command word has no byte order (R70), so the number is the word itself (log 9). A row of fewer bits leaves the upper
bits 0, as the number does. -/
def decodeTableWord (_nbits w : Nat) : Option Instr :=
  match decode (BitVec.ofNat 80 w) with
  | .ok i => some i
  | .error _ => none

end Sys2Proof
end

