-- ==== Sys2Proof/Config.lean ====
section
/-! DEFINITION. What the spec leaves to the implementer or leaves open: the parameter EXTRA_EXT and the
value of the sender id registers after a hardware reset. -/

namespace Sys2Proof.Config

/-- The parameter EXTRA_EXT of R8 and R114: a finite map from message ids to CRC-extra bytes, as a list of pairs.
DESIGN CHOICE (log 7): it is carried by the machine's state, so that a statement about every state holds for
every value of the parameter. Safe. -/
abbrev ExtraExt := List (MsgId × Byte)

/-- The default of EXTRA_EXT, which R8 gives: empty. -/
def defaultExtraExt : ExtraExt := []

/-- The restriction R8 and D12 put on EXTRA_EXT: every key is below 50000 and is not one of the seven listed ids,
and no key occurs twice. -/
abbrev ExtraExtWf (e : ExtraExt) : Prop :=
  e.all (fun p => p.1.toNat < 50000 ∧ p.1.toNat ∉ [0, 1, 30, 33, 74, 253, 251]) = true ∧ (e.map Prod.fst).Nodup

/-- FREE VALUE (log 4): what SYSID and COMPID hold after a hardware reset is "unspecified" (R21, R22, R231). No body,
so nothing can be proved of it. The argument numbers the occurrence. Safe. -/
opaque unspecifiedSenderId : Nat → Byte

end Sys2Proof.Config
end

