-- ==== Sys2Proof/Machine/State.lean ====
section
/-! DEFINITION. The state of the block (10_state.md R20 to R38), its ports (R36), the reasons a step can stop, and the
state after hardware reset (70_reset_and_hazards.md R231). -/

namespace Sys2Proof.Machine

/-- PHASE (R25). -/
inductive Phase
  | idle
  | collect
  deriving DecidableEq, Repr

/-- The PHASE bit of R25: IDLE = 0, COLLECT = 1. -/
def Phase.bit : Phase → BitVec 1
  | .idle => 0#1
  | .collect => 1#1

/-- What the host gives the block: a word on the command port (R36, R70), or a hardware reset, "an event that may be
applied between two commands, never in the middle of one" (R230). DESIGN CHOICE (log 2). -/
inductive HostInput
  | command (w : CommandWord)
  | hardwareReset
  deriving DecidableEq, Repr

/-- Why a step can stop with a fault. There is NO constructor, and no step faults: every error of the block is a response
(R200, R213), and "Nothing in this block is `stuck`: the step function is total" (93_implementation_defined.md part 1). Safe. -/
inductive Fault
  deriving DecidableEq, Repr

/-- Why a step can be refused. -/
inductive Refusal
  /-- Raised by an arm of `exec` that has no meaning yet. No arm is left so: nothing raises it. Safe. -/
  | notModelled (mnemonic : String)
  deriving DecidableEq, Repr

/-- The block's state: the tuple of R20, then the ports, then the model's own fields. -/
structure State where
  /-- SYSID (R21). -/
  sysid : Byte
  /-- COMPID (R22). -/
  compid : Byte
  /-- SEQ, the sequence counter (R23). -/
  seq : Byte
  /-- CONFIGURED (R24). -/
  configured : Bool
  /-- PHASE (R25). -/
  phase : Phase
  /-- LASTERR, a code of R82 (R26). -/
  lasterr : BitVec 4
  /-- MSGID (R29). -/
  msgid : MsgId
  /-- MODE (R30). -/
  mode : CrcMode
  /-- PLEN, "an integer from 0 to 256" (R31). -/
  plen : Fin 257
  /-- PBUF as the list of its meaningful bytes, index 0 first (R32). -/
  pbuf : List Byte
  /-- CRC (R28). -/
  crc : Crc16
  /-- OUT, the frames emitted since reset, oldest first (R35). -/
  out : List (List Byte)
  /-- MODEL: what the host has presented and the block has not yet taken, next first (R36, R58; log 1, log 2). -/
  inputs : List HostInput
  /-- MODEL: the responses given since reset, oldest first (R36, R58, R80; log 5). -/
  responses : List ResponseWord
  /-- MODEL: the parameter EXTRA_EXT (R8, R114; log 7). No step writes it. -/
  extraExt : Config.ExtraExt
  /-- MODEL: numbers the free values that hardware resets use (log 4). -/
  freeIndex : Nat
  deriving DecidableEq, Repr

/-- The state after hardware reset (R231). SYSID and COMPID: DESIGN CHOICE 0, the spec says "unspecified" (log 3).
`extraExt`: the default of R8 (log 7). `freeIndex`: DESIGN CHOICE 0 (log 4). -/
def State.reset : State where
  sysid := 0
  compid := 0
  seq := 0
  configured := false
  phase := .idle
  lasterr := 0
  msgid := 0
  mode := .plain
  plen := 0
  pbuf := []
  crc := 0xFFFF#16
  out := []
  inputs := []
  responses := []
  extraExt := Config.defaultExtraExt
  freeIndex := 0

end Sys2Proof.Machine
end

