-- ==== Sys2Proof/Machine/Ops.lean ====
section
/-! DEFINITION. The operations that the meanings share: responses (30_encoding.md R80, R81), raising an error
(60_exceptions.md R210, R211), the payload buffer (20_memory.md R52 to R54), emission (R56, R57), the input
side (R58, R230) and the hardware reset event (R231). -/

namespace Sys2Proof.Machine

/-- The error kinds of R82 and R200. -/
inductive ErrorKind
  /-- Code 1, "never produced by the block" (R82, R201). -/
  | schemaFileMissing
  | unknownMessageId
  | missingFieldValue
  | unsupportedFieldType
  | valueOutOfRange
  | payloadTooLarge
  | protocolViolation
  | illegalCommand
  deriving DecidableEq, Repr

/-- The code of an error kind (R82). -/
def ErrorKind.code : ErrorKind → BitVec 4
  | .schemaFileMissing => 1
  | .unknownMessageId => 2
  | .missingFieldValue => 3
  | .unsupportedFieldType => 4
  | .valueOutOfRange => 5
  | .payloadTooLarge => 6
  | .protocolViolation => 14
  | .illegalCommand => 15

/-- R210 lists the kinds that abandon the encode, R211 those that abandon nothing. -/
def ErrorKind.abandonsEncode : ErrorKind → Bool
  | .missingFieldValue | .unsupportedFieldType | .valueOutOfRange | .payloadTooLarge => true
  | .schemaFileMissing | .unknownMessageId | .protocolViolation | .illegalCommand => false

/-- `OK(d)`, the success response word of R80: ERR 0, bits 30:28 zero, CODE 0, DATA d. -/
def okWord (d : BitVec 24) : ResponseWord := 0#1 ++ 0#3 ++ 0#4 ++ d

/-- `ERR(c)`, the error response word of R80: ERR 1, bits 30:28 zero, CODE c, DATA 0. -/
def errWord (c : BitVec 4) : ResponseWord := 1#1 ++ 0#3 ++ c ++ 0#24

/-- The command ends with the response word `r`; responses leave in command order (R58, R80). -/
def respond (r : ResponseWord) (s : State) : State := { s with responses := s.responses ++ [r] }

/-- `raise`: TAKING AN ERROR (R210, R211). LASTERR gets the code and the response is ERR(code); a kind of R210 also clears the
payload and returns PHASE to IDLE; nothing else changes. There is no return operation, because there is no
saved context to return to (R214). -/
def raise (e : ErrorKind) (s : State) : State :=
  { s with
    lasterr := e.code
    phase := if e.abandonsEncode then .idle else s.phase
    plen := if e.abandonsEncode then 0 else s.plen
    pbuf := if e.abandonsEncode then [] else s.pbuf
    responses := s.responses ++ [errWord e.code] }

/-- PBUF_SIZE of R8: indices 0 to 254 (R32). -/
def pbufSize : Nat := 255

/-- `MemWrite` of R10 on the payload buffer: the bytes are stored from index `addr` up, those at index 255 or more
are dropped (R53). -/
def memWrite (addr : Nat) (bytes buf : List Byte) : List Byte :=
  (buf.take addr ++ bytes ++ buf.drop (addr + bytes.length)).take pbufSize

/-- `MemRead` of R10: the `n` bytes of the payload buffer from index `addr` up. -/
def memRead (addr n : Nat) (buf : List Byte) : List Byte := (buf.drop addr).take n

/-- The byte of PBUF at an index; an index that holds no value (R32, U7) has none. -/
def pbufByte (s : State) (i : Nat) : Option Byte := s.pbuf[i]?

/-- `min(PLEN + w, 256)` (R31, R53). -/
def plenAfter (plen : Fin 257) (w : Nat) : Fin 257 := ⟨min (plen.val + w) 256, by omega⟩

/-- The append of R135: the bytes are written at PLEN, then PLEN advances, saturating (R53). -/
def appendPayload (bytes : List Byte) (s : State) : State :=
  { s with
    pbuf := memWrite s.plen.val bytes s.pbuf
    plen := plenAfter s.plen bytes.length }

/-- "PBUF cleared; PLEN <- 0". -/
def clearPayload (s : State) : State := { s with pbuf := [], plen := 0 }

/-- `emit` (R57): the frame is appended to OUT as one element. -/
def emit (frame : List Byte) (s : State) : State := { s with out := s.out ++ [frame] }

/-- A frame as it appears on the frame port: each byte with its LAST flag, which is 1 only on the final byte (R56). -/
def framePortBytes (frame : List Byte) : List (Byte × Bool) :=
  frame.zipIdx.map fun p => (p.1, decide (p.2 + 1 = frame.length))

/-- The stream the frame port has carried since reset; bytes of two frames never interleave (R56). -/
def framePort (s : State) : List (Byte × Bool) := s.out.flatMap framePortBytes

/-- The next thing the host has presented, and the state with it taken, in arrival order (R20, R58). -/
def takeInput (s : State) : Option (HostInput × State) :=
  match s.inputs with
  | [] => none
  | x :: rest => some (x, { s with inputs := rest })

/-- The hardware reset event (R230, R231, R232). SYSID and COMPID become free values (log 4); what the host
presents after the reset is still to come; the parameter EXTRA_EXT is not state and stays. -/
def hardwareReset (s : State) : State :=
  { State.reset with
    sysid := Config.unspecifiedSenderId s.freeIndex
    compid := Config.unspecifiedSenderId (s.freeIndex + 1)
    inputs := s.inputs
    extraExt := s.extraExt
    freeIndex := s.freeIndex + 2 }

/-- A word that is not one of the defined encodings raises IllegalCommand, whatever the state (R86, R208). -/
def illegalWord (s : State) : State := raise .illegalCommand s

/-- The host presents the command word `w` next: it stands first among what the block has not yet taken. -/
def presentNext (w : CommandWord) (s : State) : State := { s with inputs := .command w :: s.inputs }

/-- PBUF's canonical form (R32): "a list of bytes of length `min(PLEN,255)`". -/
abbrev Memory.wf (s : State) : Prop := s.pbuf.length = min s.plen.val 255

end Sys2Proof.Machine
end

