-- ==== Sys2Proof/Machine/Checksum.lean ====
section
/-! DEFINITION. ChecksumEngine (41_checksum.md R110 to R118): the CRC-16 update, the CRC-extra byte, the two checksum modes,
and the commands CRCINIT and CRCBYTE. -/

namespace Sys2Proof.Machine

/-- CRC_INIT of R8. -/
def crcInitial : Crc16 := 0xFFFF#16

/-- CRC_POLY of R8. -/
def crcPoly : Crc16 := 0x1021#16

/-- One of the 8 rounds of R110; the test is made on the value before the shift. -/
def crcRound (r : Crc16) : Crc16 := if r.msb then (r <<< 1) ^^^ crcPoly else r <<< 1

/-- `n` rounds of R110. -/
def crcRounds : Nat → Crc16 → Crc16
  | 0, r => r
  | n + 1, r => crcRounds n (crcRound r)

/-- `crc_step` (R110): the byte is XORed into the high byte of the register, then 8 rounds. -/
def crcStep (r : Crc16) (b : Byte) : Crc16 := crcRounds 8 (r ^^^ (b ++ 0#8))

/-- `crc_bytes` (R111): `crc_step` over a byte sequence from its first byte to its last. -/
def crcBytes (r : Crc16) : List Byte → Crc16
  | [] => r
  | b :: t => crcBytes (crcStep r b) t

/-- EXTRA_BASE of R8: the seven listed pairs (R114), "unaudited" literals used exactly as printed (U13). -/
def extraBase : List (Nat × Byte) := [(0, 50), (1, 124), (30, 39), (33, 104), (74, 142), (253, 83), (251, 170)]

/-- CUSTOM_ID_MIN of R8. -/
def customIdMin : Nat := 50000

/-- The value a finite map gives a key, if any: the first pair with that key. -/
def lookupPair {κ : Type} [DecidableEq κ] (k : κ) : List (κ × Byte) → Option Byte
  | [] => none
  | p :: t => if p.1 = k then some p.2 else lookupPair k t

/-- `crc_extra` (R114), the seed byte of a message id: the listed pairs, then the custom range, then EXTRA_EXT, then 0. -/
def crcExtra (ext : Config.ExtraExt) (id : MsgId) : Byte :=
  match lookupPair id.toNat extraBase with
  | some e => e
  | none =>
    if customIdMin ≤ id.toNat then id.extractLsb' 0 8 ^^^ id.extractLsb' 8 8
    else (lookupPair id ext).getD 0

/-- `checksum16` (R113, R154): the register starts at 0xFFFF, in Seeded mode it absorbs the CRC-extra byte first, then all
10 header bytes and the payload. -/
def checksum16 (ext : Config.ExtraExt) (mode : CrcMode) (id : MsgId) (header payload : List Byte) : Crc16 :=
  match mode with
  | .plain => crcBytes crcInitial (header ++ payload)
  | .seeded => crcBytes (crcStep crcInitial (crcExtra ext id)) (header ++ payload)

/-- CRCINIT (R115): CRC becomes 0xFFFF, in any phase, configured or not. -/
def execCrcInit (s : State) : Host.Outcome State Fault Refusal :=
  .next (respond (okWord (crcInitial.setWidth 24)) { s with crc := crcInitial })

/-- CRCBYTE (R116): CRC absorbs the byte and the response carries the new value. -/
def execCrcByte (b : Byte) (s : State) : Host.Outcome State Fault Refusal :=
  .next (respond (okWord ((crcStep s.crc b).setWidth 24)) { s with crc := crcStep s.crc b })

end Sys2Proof.Machine
end

