-- ==== Sys2Proof/Machine/FrameBuilder.lean ====
section
/-! DEFINITION. FrameBuilder (43_framebuilder.md R150 to R159): header, frame, and the command END. -/

namespace Sys2Proof.Machine

/-- START_BYTE of R8. -/
def startByte : Byte := 0xFD#8

/-- MAX_PAYLOAD of R8. -/
def maxPayload : Nat := 255

/-- FRAME_OVERHEAD of R8: start byte, 10 header bytes, 2 checksum bytes. -/
def frameOverhead : Nat := 13

/-- `header10` (R152): payload length, two zero flag bytes, the captured sequence value, the sender ids, the message id low byte
first, one zero pad byte. -/
def header10 (len : Nat) (seq sysid compid : Byte) (id : MsgId) : List Byte :=
  [BitVec.ofNat 8 len, 0#8, 0#8, seq, sysid, compid,
    id.extractLsb' 0 8, id.extractLsb' 8 8, id.extractLsb' 16 8, 0#8]

/-- `frame_bytes` (R156): start byte, header, payload, checksum low byte first (R155). -/
def frameBytes (header payload : List Byte) (c : Crc16) : List Byte :=
  [startByte] ++ header ++ payload ++ [c.extractLsb' 0 8, c.extractLsb' 8 8]

/-- The payload END reads: `MemRead(0, L)` with `L = PLEN` (R157). -/
def endPayload (s : State) : List Byte := memRead 0 s.plen.val s.pbuf

/-- Step 3 of the build, with the sequence value captured in step 2 (R152, R153). -/
def endHeader (s : State) : List Byte := header10 s.plen.val s.seq s.sysid s.compid s.msgid

/-- Step 4 of the build (R154). -/
def endChecksum (s : State) : Crc16 := checksum16 s.extraExt s.mode s.msgid (endHeader s) (endPayload s)

/-- Step 5 of the build (R156). -/
def endFrame (s : State) : List Byte := frameBytes (endHeader s) (endPayload s) (endChecksum s)

/-- The five steps of the build in the order of R150, for a payload that passed step 1: SEQ advances, CRC holds the
checksum, the frame is emitted, the payload is cleared and PHASE returns to IDLE (R157). -/
def buildFrame (s : State) : State :=
  let advanced := { s with seq := s.seq + 1, crc := endChecksum s }
  { clearPayload (emit (endFrame s) advanced) with phase := .idle }

/-- END (R157): allowed only in COLLECT; builds and emits the frame, or raises PayloadTooLarge. -/
def execEnd (s : State) : Host.Outcome State Fault Refusal :=
  if s.phase ≠ .collect then .next (raise .protocolViolation s)
  else if maxPayload < s.plen.val then .next (raise .payloadTooLarge s)
  else .next (respond (okWord (BitVec.ofNat 24 (frameOverhead + s.plen.val))) (buildFrame s))

end Sys2Proof.Machine
end

