-- ==== Sys2Proof/Machine/Operands.lean ====
section
/-! DEFINITION. Operand forms: the WireTypeMap (40_wiretypemap.md R100 to R103), the integer a VALUE stands for
(30_encoding.md R84), and the byte patterns `le` and `tc` (00_scope.md R10). -/

namespace Sys2Proof.Machine

/-- The wire type a WT code names, or Unknown for codes 11 to 15 (R79, R100, R103). -/
def wireTypeOf (wt : BitVec 4) : Option WireType :=
  match wt.toNat with
  | 0 => some .uint8
  | 1 => some .int8
  | 2 => some .uint16
  | 3 => some .int16
  | 4 => some .uint32
  | 5 => some .int32
  | 6 => some .uint64
  | 7 => some .int64
  | 8 => some .float32
  | 9 => some .float64
  | 10 => some .char
  | _ => none

/-- `wt_width` (R101). -/
def wtWidth : WireType → Nat
  | .uint8 => 1
  | .int8 => 1
  | .uint16 => 2
  | .int16 => 2
  | .uint32 => 4
  | .int32 => 4
  | .uint64 => 8
  | .int64 => 8
  | .float32 => 4
  | .float64 => 8
  | .char => 1

/-- `wt_lo` (R102). -/
def wtLo : WireType → Int
  | .uint8 => 0
  | .int8 => -128
  | .uint16 => 0
  | .int16 => -32768
  | .uint32 => 0
  | .int32 => -2147483648
  | .uint64 => 0
  | .int64 => -9223372036854775808
  | .float32 => 0
  | .float64 => 0
  | .char => 0

/-- `wt_hi` (R102). -/
def wtHi : WireType → Int
  | .uint8 => 255
  | .int8 => 127
  | .uint16 => 65535
  | .int16 => 32767
  | .uint32 => 4294967295
  | .int32 => 2147483647
  | .uint64 => 18446744073709551615
  | .int64 => 9223372036854775807
  | .float32 => 4294967295
  | .float64 => 18446744073709551615
  | .char => 255

/-- The signed integer class of R79: WT in 1, 3, 5, 7 (R131). -/
def wtSigned : WireType → Bool
  | .int8 | .int16 | .int32 | .int64 => true
  | .uint8 | .uint16 | .uint32 | .uint64 | .float32 | .float64 | .char => false

/-- `v = sext_65(VALUE)` (R84). -/
def valueOf (value : BitVec 65) : Int := value.toInt

/-- `le(n, w)` (R10): the `w` bytes of `n`, least significant first. -/
def le (n : Nat) : Nat → List Byte
  | 0 => []
  | w + 1 => BitVec.ofNat 8 n :: le (n / 256) w

/-- `tc(n, w)` (R10): `n mod 2^(8w)`, the two's-complement pattern of `n` in `8w` bits. -/
def tc (n : Int) (w : Nat) : Nat := (n % (2 ^ (8 * w) : Nat)).toNat

end Sys2Proof.Machine
end

