-- ==== Sys2Proof/Machine/PayloadCodec.lean ====
section
/-! DEFINITION. PayloadCodec (42_payloadcodec.md R130 to R138): `pack_field` and the command FIELD. -/

namespace Sys2Proof.Machine

/-- The byte of an empty char field, the letter A (R131, R134; GK4, log 13). -/
def emptyCharByte : Byte := 0x41#8

/-- The bytes of an in-range value (R131 last lines, R132 to R134). -/
def valueBytes (t : WireType) (v : Int) : List Byte :=
  if wtSigned t then le (tc v (wtWidth t)) (wtWidth t) else le v.toNat (wtWidth t)

/-- `pack_field` (R131), its checks in the order R131 gives. -/
def packField (wt : BitVec 4) (present empty : Bool) (v : Int) : Except ErrorKind (List Byte) :=
  if present = false then .error .missingFieldValue
  else
    match wireTypeOf wt with
    | none => .error .unsupportedFieldType
    | some t =>
      if t = .char ∧ empty = true then .ok [emptyCharByte]
      else if v < wtLo t ∨ wtHi t < v then .error .valueOutOfRange
      else .ok (valueBytes t v)

/-- FIELD (R135): allowed only in COLLECT; packs one value and appends it, or abandons the encode. -/
def execField (wt : BitVec 4) (present empty : Bool) (value : BitVec 65) (s : State) :
    Host.Outcome State Fault Refusal :=
  if s.phase ≠ .collect then .next (raise .protocolViolation s)
  else
    match packField wt present empty (valueOf value) with
    | .error e => .next (raise e s)
    | .ok b => .next (respond (okWord (BitVec.ofNat 24 (plenAfter s.plen b.length).val)) (appendPayload b s))

end Sys2Proof.Machine
end

