-- ==== Sys2Proof/Machine/PacketEncoder.lean ====
section
/-! DEFINITION. PacketEncoder (44_packetencoder.md R170 to R176): the command BEGIN, and the whole of one encode as
one function. -/

namespace Sys2Proof.Machine

/-- What an accepted BEGIN writes (R171): MSGID and MODE latched, payload cleared, LASTERR cleared, PHASE to COLLECT. -/
def openEncode (mode : CrcMode) (msgid : MsgId) (s : State) : State :=
  { clearPayload s with msgid := msgid, mode := mode, lasterr := 0, phase := .collect }

/-- BEGIN (R171): allowed only when CONFIGURED and IDLE; an id the host did not find is refused; else the encode opens and the response
carries the seed byte of the id. -/
def execBegin (known : Bool) (mode : CrcMode) (msgid : MsgId) (s : State) : Host.Outcome State Fault Refusal :=
  if s.configured = false ∨ s.phase ≠ .idle then .next (raise .protocolViolation s)
  else if known = false then .next (raise .unknownMessageId s)
  else .next (respond (okWord ((crcExtra s.extraExt msgid).setWidth 24)) (openEncode mode msgid s))

/-- One field of an encode as the host sends it: (WT, PRESENT, EMPTY, VALUE) (R174). -/
structure FieldOperands where
  wt : BitVec 4
  present : Bool
  empty : Bool
  value : BitVec 65
  deriving DecidableEq, Repr

/-- `pack` (R130, R174): the unsaturated concatenation of the packed fields, or the first error in declared order. -/
def packFields : List FieldOperands → Except ErrorKind (List Byte)
  | [] => .ok []
  | f :: rest =>
    match packField f.wt f.present f.empty (valueOf f.value) with
    | .error e => .error e
    | .ok b =>
      match packFields rest with
      | .error e => .error e
      | .ok p => .ok (b ++ p)

/-- `encode` (R174): one complete encode as a function of its operands and of SYSID, COMPID, SEQ; the frame or the error,
and the new SEQ. -/
def encodeMessage (ext : Config.ExtraExt) (known : Bool) (mode : CrcMode) (msgid : MsgId)
    (fields : List FieldOperands) (sysid compid seq : Byte) : Except ErrorKind (List Byte) × Byte :=
  if known = false then (.error .unknownMessageId, seq)
  else
    match packFields fields with
    | .error e => (.error e, seq)
    | .ok p =>
      if maxPayload < p.length then (.error .payloadTooLarge, seq)
      else
        let h := header10 p.length seq sysid compid msgid
        (.ok (frameBytes h p (checksum16 ext mode msgid h p)), seq + 1)

end Sys2Proof.Machine
end

