-- ==== Sys2Proof/Machine/Flags.lean ====
section
/-! DEFINITION. The status word and the host-readable registers (10_state.md R33). The block has no arithmetic flags. -/

namespace Sys2Proof.Machine

/-- STATUS, `x[0]` of R33: bit 0 PHASE, bit 1 CONFIGURED, bit 2 MODE, bit 3 always 0, bits 7:4 LASTERR. -/
def statusByte (s : State) : Byte := s.lasterr ++ 0#1 ++ s.mode.bit ++ BitVec.ofBool s.configured ++ s.phase.bit

/-- `x[n]` for `n` 0 to 7, zero-extended to the 24 bits of DATA (R33). Numbers 8 to 15 are unassigned: RDREG raises before it
reads one (R186), and the value here is never used. -/
def readRegister (n : BitVec 4) (s : State) : BitVec 24 :=
  match n.toNat with
  | 0 => (statusByte s).setWidth 24
  | 1 => s.lasterr.setWidth 24
  | 2 => s.seq.setWidth 24
  | 3 => s.sysid.setWidth 24
  | 4 => s.compid.setWidth 24
  | 5 => s.msgid
  | 6 => BitVec.ofNat 24 s.plen.val
  | 7 => s.crc.setWidth 24
  | _ => 0

end Sys2Proof.Machine
end

