-- ==== Sys2Proof/Machine/System.lean ====
section
/-! DEFINITION. The system commands (45_system.md R185 to R188): INIT and RDREG. -/

namespace Sys2Proof.Machine

/-- What INIT writes (R185): a new EncoderState. CRC, MSGID, MODE and OUT keep their values. -/
def newSession (sysid compid : Byte) (s : State) : State :=
  { clearPayload s with sysid := sysid, compid := compid, seq := 0, configured := true, phase := .idle, lasterr := 0 }

/-- INIT (R185): accepted in every phase, configured or not. -/
def execInit (sysid compid : Byte) (s : State) : Host.Outcome State Fault Refusal :=
  .next (respond (okWord 0) (newSession sysid compid s))

/-- RDREG (R186): an unassigned number is IllegalCommand, a sender id before INIT is ProtocolViolation, and otherwise the
register's value is the response and nothing else changes. -/
def execRdReg (reg : BitVec 4) (s : State) : Host.Outcome State Fault Refusal :=
  if 8 ≤ reg.toNat then .next (raise .illegalCommand s)
  else if (reg = 3 ∨ reg = 4) ∧ s.configured = false then .next (raise .protocolViolation s)
  else .next (respond (okWord (readRegister reg s)) s)

end Sys2Proof.Machine
end

