-- ==== Sys2Proof/Machine/Dispatch.lean ====
section
/-! DEFINITION. One arm per command (30_encoding.md R71), each one direct call of its meaning. -/

namespace Sys2Proof.Machine

def exec (i : Instr) (s : State) : Host.Outcome State Fault Refusal :=
  match i with
  | .init sysid compid => Sys2Proof.Machine.execInit sysid compid s
  | .beginEncode known mode msgid => Sys2Proof.Machine.execBegin known mode msgid s
  | .field wt present empty value => Sys2Proof.Machine.execField wt present empty value s
  | .endEncode => Sys2Proof.Machine.execEnd s
  | .crcInit => Sys2Proof.Machine.execCrcInit s
  | .crcByte b => Sys2Proof.Machine.execCrcByte b s
  | .rdReg reg => Sys2Proof.Machine.execRdReg reg s

end Sys2Proof.Machine
end

