-- ==== Sys2Proof/Machine/Step.lean ====
section
/-! DEFINITION. One step: the block takes the next thing the host has presented (10_state.md R20, R27) and carries it out. -/

namespace Sys2Proof.Machine

/-- One step. With nothing presented the block waits and nothing changes (R233, R215; log 1). A hardware reset puts every
register at its reset value (R230). A legal command word is executed (R11); an illegal one raises IllegalCommand (R208). -/
def step (s : State) : Host.Outcome State Fault Refusal :=
  match takeInput s with
  | none => .next s
  | some (.hardwareReset, t) => .next (hardwareReset t)
  | some (.command w, t) =>
    match decode w with
    | .ok i => exec i t
    | .error _ => .next (illegalWord t)

/-- The state with the word numbered `w` presented next on the command port (log 8, log 9). Nothing else changes. -/
def State.withFetchWord (s : State) (_nbits w : Nat) : State := presentNext (BitVec.ofNat 80 w) s

end Sys2Proof.Machine
end

