-- ==== Sys2Proof/Safety.lean ====
section
/-! DEFINITION. The terms in which claims about runs are made: the response and error forms of 30_encoding.md R80 and
60_exceptions.md R210, R211 as the spec writes them, the invariants of 10_state.md R38, runs, and the command sequences of
an encode (44_packetencoder.md R170, R90). -/

namespace Sys2Proof.Machine

/-- "An error response with code c ... is the word `0x80000000 + (c << 24)`" (R80). -/
def errorResponse (c : BitVec 4) : ResponseWord := 0x80000000#32 + (c.setWidth 32 <<< 24)

/-- "A success response with DATA = d ... is the word `0x00000000 + d`" (R80). -/
def successResponse (d : BitVec 24) : ResponseWord := d.setWidth 32

/-- The state after an error that abandons nothing (R211): LASTERR and the response. -/
def refusesWith (c : BitVec 4) (s : State) : State :=
  { s with lasterr := c, responses := s.responses ++ [errorResponse c] }

/-- The state after an error that abandons the encode (R210). -/
def abandonsWith (c : BitVec 4) (s : State) : State :=
  { s with
    lasterr := c, pbuf := [], plen := 0, phase := .idle
    responses := s.responses ++ [errorResponse c] }

/-- The state `s` with a success response carrying `d`. -/
def succeedsWith (d : BitVec 24) (s : State) : State :=
  { s with responses := s.responses ++ [successResponse d] }

/-- The bits a format marks "zero", by OP (R73 to R78). -/
def zeroMask (op : Nat) : CommandWord :=
  match op with
  | 1 => 0x0FFFFFFFFFFFFFFF0000#80
  | 2 => 0x0FFFFFFFFFFFFC000000#80
  | 3 => 0x003E0000000000000000#80
  | 4 => 0x0FFFFFFFFFFFFFFFFFFF#80
  | 5 => 0x0FFFFFFFFFFFFFFFFFFF#80
  | 6 => 0x0FFFFFFFFFFFFFFFFF00#80
  | 7 => 0x0FFFFFFFFFFFFFFFFFF0#80
  | _ => 0#80

/-- "Illegal command words" (R86): OP = 0x0; OP = 0x8 to 0xF; any word with a "zero" bit set; RDREG with REG = 8 to 15. -/
abbrev illegalByRule (w : CommandWord) : Prop :=
  (w.extractLsb' 76 4).toNat = 0 ∨ 8 ≤ (w.extractLsb' 76 4).toNat ∨
    w &&& zeroMask (w.extractLsb' 76 4).toNat ≠ 0#80 ∨
    ((w.extractLsb' 76 4).toNat = 7 ∧ 8 ≤ (w.extractLsb' 0 4).toNat)

/-- Every word of opcode `op` with a bit set among bits `lo + len - 1 : lo` raises IllegalCommand and changes only LASTERR
(the first line of each command's rule, R208). -/
abbrev illegalIfSet (op : BitVec 4) (lo len : Nat) : Prop :=
  ∀ (s : State) (w : CommandWord) (rest : List HostInput), s.inputs = .command w :: rest →
    w.extractLsb' 76 4 = op → w.extractLsb' lo len ≠ 0#len →
    step s = .next (refusesWith 15 { s with inputs := rest })

/-- The shape R38(c) gives every emitted frame. -/
abbrev frameShapeOk (f : List Byte) : Prop :=
  13 ≤ f.length ∧ f.length ≤ 268 ∧ f[0]? = some 0xFD#8 ∧ f[1]? = some (BitVec.ofNat 8 (f.length - 13))

/-- The message id a frame carries at offsets 7, 8, 9, low byte first (R55). -/
def frameMsgId (f : List Byte) : MsgId := f.getD 9 0 ++ f.getD 8 0 ++ f.getD 7 0

/-- The checksum a frame carries in its last two bytes, low byte first (R55). -/
def frameCrc (f : List Byte) : Crc16 := f.getD (f.length - 1) 0 ++ f.getD (f.length - 2) 0

/-- The bytes a frame's checksum covers: all but the start byte and the two checksum bytes (R51). -/
def frameCovered (f : List Byte) : List Byte := (f.drop 1).take (f.length - 3)

/-- A peer's check of a frame in one mode (R51, R113): the checksum of the covered bytes, the seed byte first in Seeded
mode, is the one the frame carries. -/
abbrev frameVerifies (ext : Config.ExtraExt) (mode : CrcMode) (f : List Byte) : Prop :=
  match mode with
  | .plain => crcBytes 0xFFFF#16 (frameCovered f) = frameCrc f
  | .seeded => crcBytes 0xFFFF#16 (crcExtra ext (frameMsgId f) :: frameCovered f) = frameCrc f

/-- Every frame handed to the sink passes the check of one of the two modes. -/
abbrev State.FramesVerify (s : State) : Prop :=
  ∀ f ∈ s.out, frameVerifies s.extraExt .plain f ∨ frameVerifies s.extraExt .seeded f

/-- The codes LASTERR can hold (R26, R82): 0, or a code the block raises. -/
abbrev legalLasterr (c : BitVec 4) : Prop := c.toNat ∈ [0, 2, 3, 4, 5, 6, 14, 15]

/-- The form of a response word (R80) with a code the block can raise (R82). -/
abbrev legalResponse (r : ResponseWord) : Prop :=
  r.extractLsb' 28 3 = 0#3 ∧
    ((r.extractLsb' 31 1 = 0#1 ∧ r.extractLsb' 24 4 = 0#4) ∨
      (r.extractLsb' 31 1 = 1#1 ∧ (r.extractLsb' 24 4).toNat ∈ [2, 3, 4, 5, 6, 14, 15] ∧ r.extractLsb' 0 24 = 0#24))

/-- The invariant of the block: R38 (a), (b), (c), the form of PBUF (R32), the codes of LASTERR and of the responses (R26,
R80, R82), and the restriction on the parameter EXTRA_EXT (R8). -/
abbrev State.Inv (s : State) : Prop :=
  (s.phase = .idle → s.plen = 0 ∧ s.pbuf = []) ∧
    (s.phase = .collect → s.configured = true) ∧
    Memory.wf s ∧
    s.out.all (fun f => frameShapeOk f) = true ∧
    legalLasterr s.lasterr ∧
    s.responses.all (fun r => legalResponse r) = true ∧
    Config.ExtraExtWf s.extraExt

/-- `n` steps, stopping at the first that answers no next state. -/
def runSteps : Nat → State → Host.Outcome State Fault Refusal
  | 0, s => .next s
  | n + 1, s =>
    match step s with
    | .next t => runSteps n t
    | .fault r => .fault r
    | .refused r => .refused r

/-- A list of instructions executed one after the other. -/
def execAll : List Instr → State → Host.Outcome State Fault Refusal
  | [], s => .next s
  | i :: rest, s =>
    match exec i s with
    | .next t => execAll rest t
    | .fault r => .fault r
    | .refused r => .refused r

/-- The words of a list of instructions as the host presents them. -/
def presented (is : List Instr) : List HostInput := is.map fun i => .command (encode i)

/-- The input neither resets the block nor starts a new session, so SEQ goes on counting (R23, R232). -/
def staysInSession (x : HostInput) : Bool :=
  match x with
  | .hardwareReset => false
  | .command w =>
    match decode w with
    | .ok (.init _ _) => false
    | _ => true

/-- The FIELD command of one field. -/
def FieldOperands.toInstr (f : FieldOperands) : Instr := .field f.wt f.present f.empty f.value

/-- The command sequence of one encode (R170), the expansion of ENCODE (R90). -/
def encodeCommands (known : Bool) (mode : CrcMode) (msgid : MsgId) (fields : List FieldOperands) : List Instr :=
  .beginEncode known mode msgid :: (fields.map FieldOperands.toInstr ++ [.endEncode])

/-- The expansion of CRCOF (R90). -/
def crcOfCommands (bytes : List Byte) : List Instr := .crcInit :: bytes.map .crcByte

/-- The code of the first error among some responses, if there is one. -/
def firstErrorCode : List ResponseWord → Option (BitVec 4)
  | [] => none
  | r :: rest => if r.extractLsb' 31 1 = 1#1 then some (r.extractLsb' 24 4) else firstErrorCode rest

/-- `t` is `s` but for the sender ids, and agrees with it there too once CONFIGURED is 1 (R21, R22, R231). -/
abbrev agreesButUnconfiguredIds (s t : State) : Prop :=
  t = { s with sysid := t.sysid, compid := t.compid } ∧ (s.configured = true → t = s)

/-- The integer a field's bytes stand for, read back little-endian, for the signed types as a two's-complement number (R138). -/
def unpackField (t : WireType) (bytes : List Byte) : Int :=
  let n : Nat := bytes.foldr (fun b acc => b.toNat + 256 * acc) 0
  if wtSigned t ∧ 2 ^ (8 * wtWidth t - 1) ≤ n then (n : Int) - 2 ^ (8 * wtWidth t) else n

end Sys2Proof.Machine
end

