-- ==== Sys2Proof/Certificates/Slice0/Obligations.lean ====
section
/-! DEFINITION. The statements for the provers. Each docstring names the rule of spec/ it states, or says that it is derived.
`succeedsWith`, `refusesWith`, `abandonsWith` of Sys2Proof/Safety.lean are the responses of R80 with the effects of R210 and R211;
a state equation says the frame too: what it does not name is unchanged. -/

open Sys2Proof Sys2Proof.Machine

/-! ### Reset and the step -/

/-- The reset values that R231 gives; nothing is said of SYSID and COMPID, which R231 leaves unspecified. Two clauses are the
model's choice: that nothing is presented (the field `inputs`, log 1 and log 8; R231 has no row for the command port), and that
the record `responses` is empty (log 5; R231 says of the response port that it is idle with nothing pending). -/
def Obligations.ResetHoldsSpecValues : Prop :=
  State.reset.seq = 0#8 ∧ State.reset.configured = false ∧ State.reset.phase = .idle ∧ State.reset.lasterr = 0#4 ∧
  State.reset.msgid = 0#24 ∧ State.reset.mode = .plain ∧ State.reset.plen.val = 0 ∧ State.reset.pbuf = [] ∧
  State.reset.crc = 0xFFFF#16 ∧ State.reset.out = [] ∧ State.reset.inputs = [] ∧ State.reset.responses = [] ∧
  exec (.rdReg 0) State.reset = .next (succeedsWith 0#24 State.reset)

/-- A hardware reset between two commands (R230, R231, R232). Nothing is said of SYSID and COMPID. Three clauses are the model's
choice: what the host presents after the reset stays (log 2), the record `responses` is emptied (log 5; R231 and R232 say it of
the port and of OUT), and the parameter `extraExt` is kept (log 7). -/
def Obligations.HardwareResetBetweenCommands : Prop :=
  ∀ (s : State) (rest : List HostInput), s.inputs = .hardwareReset :: rest →
    ∃ t, step s = .next t ∧ t.seq = 0#8 ∧ t.configured = false ∧ t.phase = .idle ∧ t.lasterr = 0#4 ∧ t.msgid = 0#24 ∧
      t.mode = .plain ∧ t.plen.val = 0 ∧ t.pbuf = [] ∧ t.crc = 0xFFFF#16 ∧ t.out = [] ∧ t.responses = [] ∧
      t.inputs = rest ∧ t.extraExt = s.extraExt

/-- The invariant of R38 holds after reset. -/
def Obligations.ResetMeetsBlockInvariant : Prop := State.reset.Inv

/-- R38 (a), (b), (c), with the form of PBUF (R32) and of the responses (R80), kept by every step from every state that has it. -/
def Obligations.StepKeepsBlockInvariant : Prop :=
  ∀ s t : State, s.Inv → step s = .next t → t.Inv

/-- Every step keeps this: every frame in OUT carries the checksum of one of the two modes over its own bytes (R51, R154). -/
def Obligations.StepKeepsFramesVerifying : Prop :=
  ∀ s t : State, s.Inv → s.FramesVerify → step s = .next t → t.FramesVerify

/-- When the next thing presented is a command word that decodes, the step is exec of that command on the state with the word
taken; the decoded command is well-formed. -/
def Obligations.StepRunsDecodedCommand : Prop :=
  ∀ (s : State) (w : CommandWord) (rest : List HostInput) (i : Instr),
    s.inputs = .command w :: rest → decode w = .ok i → i.wf = true ∧ step s = exec i { s with inputs := rest }

/-- With nothing presented the block waits and no state changes (R233, R215). The form of this step is the model's choice (log 1). -/
def Obligations.WaitingStepChangesNothing : Prop :=
  ∀ s : State, s.inputs = [] → step s = .next s

/-- R80: one response word per command word, legal or not, in the form of the table; codes as R82. -/
def Obligations.EveryWordGetsOneResponse : Prop :=
  ∀ (s : State) (w : CommandWord) (rest : List HostInput), s.inputs = .command w :: rest →
    ∃ t r, step s = .next t ∧ t.inputs = rest ∧ t.responses = s.responses ++ [r] ∧ legalResponse r

/-- R201: SchemaFileMissing is never raised: no step answers 0x81000000. -/
def Obligations.SchemaFileMissingNeverAnswered : Prop :=
  ∀ s t : State, step s = .next t → t.responses ≠ s.responses ++ [0x81000000#32]

/-! ### Encoding -/

/-- The nine example words of 30_encoding.md R73 to R78 decode to what the rules say they are. -/
def Obligations.SpecExampleWordsDecode : Prop :=
  decode 0x10000000000000000101#80 = .ok (.init 1 1) ∧
  decode 0x20000000000003000000#80 = .ok (.beginEncode true .seeded 0) ∧
  decode 0x20000000000002000021#80 = .ok (.beginEncode true .plain 33) ∧
  decode 0x30800000000000000007#80 = .ok (.field 0 true false 7) ∧
  decode 0x3381FFFFFFFFFFFFFFFE#80 = .ok (.field 3 true false (BitVec.ofInt 65 (-2))) ∧
  decode 0x40000000000000000000#80 = .ok .endEncode ∧
  decode 0x50000000000000000000#80 = .ok .crcInit ∧
  decode 0x60000000000000000032#80 = .ok (.crcByte 0x32) ∧
  decode 0x70000000000000000002#80 = .ok (.rdReg 2)

/-- Decode of encode is the instruction, for every well-formed instruction with every operand at every value. -/
def Obligations.DecodeInvertsEncode : Prop :=
  ∀ i : Instr, i.wf = true → decode (encode i) = .ok i

/-- A word that decodes is the encoding of what it decodes to, so no two words mean the same command. -/
def Obligations.EncodeInvertsDecode : Prop :=
  ∀ (w : CommandWord) (i : Instr), decode w = .ok i → i.wf = true ∧ encode i = w

/-- R86: the illegal words are exactly those the rule lists, and each raises IllegalCommand and changes only LASTERR. -/
def Obligations.IllegalWordsRaiseIllegalCommand : Prop :=
  (∀ w : CommandWord, (∃ i, decode w = .ok i) ↔ ¬ illegalByRule w) ∧
  ∀ (s : State) (w : CommandWord) (rest : List HostInput), s.inputs = .command w :: rest → illegalByRule w →
    step s = .next (refusesWith 15 { s with inputs := rest })

/-! ### INIT and RDREG -/

/-- R185: INIT creates a new EncoderState in every state; a word with a bit of 75:16 set is illegal. -/
def Obligations.InitStartsNewSession : Prop :=
  (∀ (sysid compid : Byte) (s : State),
    exec (.init sysid compid) s = .next (succeedsWith 0 { s with
      sysid := sysid, compid := compid, seq := 0, configured := true, pbuf := [], plen := 0, phase := .idle, lasterr := 0 })) ∧
  illegalIfSet 1 16 60

/-- R186: RDREG answers the register (the map of R33) with no side effect; an unassigned number is IllegalCommand, a sender id before
INIT is ProtocolViolation, and a word with a bit of 75:4 set is illegal. -/
def Obligations.RdRegAnswersRegister : Prop :=
  (∀ (reg : BitVec 4) (s : State), reg.toNat < 8 → (s.configured = true ∨ (reg ≠ 3 ∧ reg ≠ 4)) →
    exec (.rdReg reg) s = .next (succeedsWith (BitVec.ofNat 24 (
      if reg = 0 then (if s.phase = .collect then 1 else 0) + 2 * (if s.configured then 1 else 0) +
        4 * (if s.mode = .seeded then 1 else 0) + 16 * s.lasterr.toNat
      else if reg = 1 then s.lasterr.toNat
      else if reg = 2 then s.seq.toNat
      else if reg = 3 then s.sysid.toNat
      else if reg = 4 then s.compid.toNat
      else if reg = 5 then s.msgid.toNat
      else if reg = 6 then s.plen.val
      else s.crc.toNat)) s)) ∧
  (∀ (reg : BitVec 4) (s : State), 8 ≤ reg.toNat → exec (.rdReg reg) s = .next (refusesWith 15 s)) ∧
  (∀ (reg : BitVec 4) (s : State), (reg = 3 ∨ reg = 4) → s.configured = false →
    exec (.rdReg reg) s = .next (refusesWith 14 s)) ∧
  illegalIfSet 7 4 72

/-! ### BEGIN -/

/-- R171: an accepted BEGIN opens an encode and answers with the seed byte of the id; a BEGIN that the control state does not
allow, a BEGIN of an id the host did not find, and a word with a bit of 75:26 set. -/
def Obligations.BeginOpensEncode : Prop :=
  (∀ (mode : CrcMode) (msgid : MsgId) (s : State), s.configured = true → s.phase = .idle →
    exec (.beginEncode true mode msgid) s = .next (succeedsWith ((crcExtra s.extraExt msgid).setWidth 24) { s with
      msgid := msgid, mode := mode, pbuf := [], plen := 0, lasterr := 0, phase := .collect })) ∧
  (∀ (known : Bool) (mode : CrcMode) (msgid : MsgId) (s : State), s.configured = false ∨ s.phase = .collect →
    exec (.beginEncode known mode msgid) s = .next (refusesWith 14 s)) ∧
  (∀ (mode : CrcMode) (msgid : MsgId) (s : State), s.configured = true → s.phase = .idle →
    exec (.beginEncode false mode msgid) s = .next (refusesWith 2 s)) ∧
  illegalIfSet 2 26 50

/-! ### FIELD -/

/-- R101, R102, R103: the eleven wire types with width and range, and no type for codes 11 to 15; a value outside the range of
its type is ValueOutOfRange (an empty char has no value to check, R131), and FIELD with a code of no type raises
UnsupportedFieldType and appends nothing. R102 marks the signed ranges as general knowledge (GK2), which the spec adopts by its
decision D30 (log 13); the ranges of codes 8 to 10 are its decision D7. -/
def Obligations.WireTypeMapTable : Prop :=
  (List.range 16).map (fun k => (wireTypeOf (BitVec.ofNat 4 k)).map fun t => (wtWidth t, wtLo t, wtHi t)) =
    [some (1, 0, 2 ^ 8 - 1), some (1, -2 ^ 7, 2 ^ 7 - 1), some (2, 0, 2 ^ 16 - 1), some (2, -2 ^ 15, 2 ^ 15 - 1),
      some (4, 0, 2 ^ 32 - 1), some (4, -2 ^ 31, 2 ^ 31 - 1), some (8, 0, 2 ^ 64 - 1), some (8, -2 ^ 63, 2 ^ 63 - 1),
      some (4, 0, 2 ^ 32 - 1), some (8, 0, 2 ^ 64 - 1), some (1, 0, 2 ^ 8 - 1), none, none, none, none, none] ∧
  (∀ (wt : BitVec 4) (t : WireType) (empty : Bool) (v : Int), wireTypeOf wt = some t → ¬(t = .char ∧ empty = true) →
    v < wtLo t ∨ wtHi t < v → packField wt true empty v = .error .valueOutOfRange) ∧
  ∀ (wt : BitVec 4) (empty : Bool) (value : BitVec 65) (s : State), wireTypeOf wt = none → s.phase = .collect →
    exec (.field wt true empty value) s = .next (abandonsWith 4 s)

/-- R131: the three checks in their order, the empty char field, and the bytes of an in-range value: `wt_width` of them, byte
k being bits 8k+7:8k of the value (of its two's-complement pattern for the signed types), low byte first. The pattern `tc` and the
byte 0x41 are the rule's own, by the spec's decisions D30 and D31 (log 13). -/
def Obligations.PackFieldFollowsRule : Prop :=
  ∀ (wt : BitVec 4) (empty : Bool) (v : Int),
    packField wt false empty v = .error .missingFieldValue ∧
    (10 < wt.toNat → packField wt true empty v = .error .unsupportedFieldType) ∧
    (wt = 10 → empty = true → packField wt true empty v = .ok [0x41#8]) ∧
    ∀ t, wireTypeOf wt = some t → ¬(wt = 10 ∧ empty = true) →
      (v < wtLo t ∨ wtHi t < v → packField wt true empty v = .error .valueOutOfRange) ∧
      (wtLo t ≤ v → v ≤ wtHi t →
        packField wt true empty v = .ok ((List.range (wtWidth t)).map fun k => BitVec.ofInt 8 (v / 2 ^ (8 * k))))

/-- R135: FIELD is allowed only in COLLECT; it packs its value and appends the bytes at PLEN, or abandons the encode with the
error of `pack_field`; a word with a bit of 69:65 set is illegal. -/
def Obligations.FieldPacksAndAppends : Prop :=
  (∀ (wt : BitVec 4) (present empty : Bool) (value : BitVec 65) (s : State), s.phase = .collect →
    exec (.field wt present empty value) s =
      match packField wt present empty value.toInt with
      | .error e => .next (abandonsWith e.code s)
      | .ok b => .next (succeedsWith (BitVec.ofNat 24 (min (s.plen.val + b.length) 256)) { s with
          pbuf := memWrite s.plen.val b s.pbuf
          plen := ⟨min (s.plen.val + b.length) 256, by omega⟩ })) ∧
  (∀ (wt : BitVec 4) (present empty : Bool) (value : BitVec 65) (s : State), s.phase = .idle →
    exec (.field wt present empty value) s = .next (refusesWith 14 s)) ∧
  illegalIfSet 3 65 5

/-- R135 with R131 to R133: in COLLECT an in-range value is appended as its `wt_width` bytes, byte k being bits 8k+7:8k of the
value (two's complement for the signed types), low byte first; the response is the new PLEN. -/
def Obligations.FieldAppendsLittleEndianBytes : Prop :=
  ∀ (wt : BitVec 4) (empty : Bool) (value : BitVec 65) (t : WireType) (s : State),
    s.phase = .collect → wireTypeOf wt = some t → ¬(t = .char ∧ empty = true) →
    wtLo t ≤ value.toInt → value.toInt ≤ wtHi t →
    exec (.field wt true empty value) s = .next (succeedsWith (BitVec.ofNat 24 (min (s.plen.val + wtWidth t) 256)) { s with
      pbuf := memWrite s.plen.val
        ((List.range (wtWidth t)).map fun k => BitVec.ofInt 8 (value.toInt / 2 ^ (8 * k))) s.pbuf
      plen := ⟨min (s.plen.val + wtWidth t) 256, by omega⟩ })

/-- R134: an empty char field appends the byte 0x41 whatever VALUE holds. -/
def Obligations.EmptyCharFieldAppendsA : Prop :=
  ∀ (value : BitVec 65) (s : State), s.phase = .collect →
    exec (.field 10 true true value) s = .next (succeedsWith (BitVec.ofNat 24 (min (s.plen.val + 1) 256)) { s with
      pbuf := memWrite s.plen.val [0x41#8] s.pbuf
      plen := ⟨min (s.plen.val + 1) 256, by omega⟩ })

/-- R203, R204, R205, R209: the errors of FIELD in their order of priority, and what each leaves. -/
def Obligations.FieldErrorsInPriorityOrder : Prop :=
  ∀ (wt : BitVec 4) (present empty : Bool) (value : BitVec 65) (s : State),
    (s.phase = .idle → exec (.field wt present empty value) s = .next (refusesWith 14 s)) ∧
    (s.phase = .collect → present = false → exec (.field wt present empty value) s = .next (abandonsWith 3 s)) ∧
    (s.phase = .collect → present = true → 11 ≤ wt.toNat →
      exec (.field wt present empty value) s = .next (abandonsWith 4 s)) ∧
    (s.phase = .collect → present = true → ∀ t, wireTypeOf wt = some t → ¬(t = .char ∧ empty = true) →
      value.toInt < wtLo t ∨ wtHi t < value.toInt →
      exec (.field wt present empty value) s = .next (abandonsWith 5 s))

/-- R53: byte k of a field goes to index PLEN + k when that is at most 254 and is dropped otherwise; no other byte of PBUF changes;
PLEN saturates at 256; an overflowing FIELD still succeeds. -/
def Obligations.FieldWritesOnlyItsBytes : Prop :=
  ∀ (wt : BitVec 4) (empty : Bool) (value : BitVec 65) (b : List Byte) (s : State),
    s.Inv → s.phase = .collect → packField wt true empty (valueOf value) = .ok b →
    ∃ t, exec (.field wt true empty value) s = .next t ∧ t.plen.val = min (s.plen.val + b.length) 256 ∧
      (∀ k, k < b.length → s.plen.val + k ≤ 254 → pbufByte t (s.plen.val + k) = b[k]?) ∧
      (∀ j, 255 ≤ j → pbufByte t j = none) ∧
      ∀ j, j < s.plen.val ∨ s.plen.val + b.length ≤ j → pbufByte t j = pbufByte s j

/-- R138: packing an in-range value and reading its bytes back gives the value, for every type (char with EMPTY = 0). -/
def Obligations.PackThenUnpackRecoversValue : Prop :=
  ∀ (wt : BitVec 4) (t : WireType) (v : Int), wireTypeOf wt = some t → wtLo t ≤ v → v ≤ wtHi t →
    ∃ b, packField wt true false v = .ok b ∧ b.length = wtWidth t ∧ unpackField t b = v

/-- R136: the payload of an encode whose fields all pack has the sum of their wire widths as its length. -/
def Obligations.PayloadLengthIsSumOfWidths : Prop :=
  ∀ (fields : List FieldOperands) (p : List Byte), packFields fields = .ok p →
    p.length = (fields.map fun f => ((wireTypeOf f.wt).map wtWidth).getD 0).sum

/-! ### END -/

/-- R157: END in COLLECT with at most 255 payload bytes builds the header, the checksum and the frame of R152, R154, R156, emits
it and advances SEQ; END outside an encode; END with an overlong payload; and a word with a bit of 75:0 set. -/
def Obligations.EndEmitsFrame : Prop :=
  (∀ s : State, s.phase = .collect → s.plen.val ≤ 255 →
    let header : List Byte := [BitVec.ofNat 8 s.plen.val, 0, 0, s.seq, s.sysid, s.compid,
      s.msgid.extractLsb' 0 8, s.msgid.extractLsb' 8 8, s.msgid.extractLsb' 16 8, 0]
    let payload := s.pbuf.take s.plen.val
    let seed : List Byte := if s.mode = .seeded then [crcExtra s.extraExt s.msgid] else []
    let c := crcBytes 0xFFFF#16 (seed ++ header ++ payload)
    exec .endEncode s = .next (succeedsWith (BitVec.ofNat 24 (13 + s.plen.val)) { s with
      seq := s.seq + 1, crc := c, pbuf := [], plen := 0, phase := .idle
      out := s.out ++ [0xFD#8 :: (header ++ payload ++ [c.extractLsb' 0 8, c.extractLsb' 8 8])] })) ∧
  (∀ s : State, s.phase = .idle → exec .endEncode s = .next (refusesWith 14 s)) ∧
  (∀ s : State, s.phase = .collect → 255 < s.plen.val → exec .endEncode s = .next (abandonsWith 6 s)) ∧
  illegalIfSet 4 0 76

/-- R151: a payload of more than 255 bytes fails the build with PayloadTooLarge before SEQ is touched; 255 and 0 are legal. -/
def Obligations.OnlyOverlongPayloadFailsBuild : Prop :=
  ∀ s : State, s.phase = .collect →
    ∃ t, exec .endEncode s = .next t ∧
      (s.plen.val = 256 → t.responses = s.responses ++ [0x86000000#32] ∧ t.seq = s.seq ∧ t.out = s.out) ∧
      (s.plen.val ≤ 255 → t.seq = s.seq + 1 ∧ ∃ f, t.out = s.out ++ [f])

/-- R55: the byte map of the frame END emits, offset by offset. -/
def Obligations.EmittedFrameByteMap : Prop :=
  ∀ s : State, s.Inv → s.phase = .collect → s.plen.val ≤ 255 →
    ∃ t f, exec .endEncode s = .next t ∧ t.out = s.out ++ [f] ∧ f.length = 13 + s.plen.val ∧
      f[0]? = some 0xFD#8 ∧ f[1]? = some (BitVec.ofNat 8 s.plen.val) ∧ f[2]? = some 0#8 ∧ f[3]? = some 0#8 ∧
      f[4]? = some s.seq ∧ f[5]? = some s.sysid ∧ f[6]? = some s.compid ∧
      f[7]? = some (s.msgid.extractLsb' 0 8) ∧ f[8]? = some (s.msgid.extractLsb' 8 8) ∧
      f[9]? = some (s.msgid.extractLsb' 16 8) ∧ f[10]? = some 0#8 ∧
      (∀ k, k < s.plen.val → f[11 + k]? = pbufByte s k) ∧
      f[11 + s.plen.val]? = some (t.crc.extractLsb' 0 8) ∧ f[12 + s.plen.val]? = some (t.crc.extractLsb' 8 8)

/-- R56: a successful END adds its frame's bytes to the frame port in offset order, and LAST is 1 exactly on the final byte. -/
def Obligations.FramePortMarksLastByte : Prop :=
  ∀ s : State, s.Inv → s.phase = .collect → s.plen.val ≤ 255 →
    ∃ t f, exec .endEncode s = .next t ∧ t.out = s.out ++ [f] ∧
      ∃ bytes, framePort t = framePort s ++ bytes ∧ bytes.map Prod.fst = f ∧
        bytes.map Prod.snd = List.replicate (12 + s.plen.val) false ++ [true]

/-- R117: the frame depends neither on what CRC held nor on earlier frames; a successful END leaves the emitted checksum in CRC;
an END that fails, in any of the three ways, leaves CRC unchanged. -/
def Obligations.EndDoesNotUseOldCrc : Prop :=
  (∀ s : State, s.phase = .collect → s.plen.val ≤ 255 →
    ∃ (t : State) (f : List Byte), t.crc = frameCrc f ∧
      ∀ (c : Crc16) (o : List (List Byte)), exec .endEncode { s with crc := c, out := o } = .next { t with out := o ++ [f] }) ∧
  (∀ s t : State, (s.phase = .idle ∨ s.plen.val = 256) → exec .endEncode s = .next t → t.crc = s.crc) ∧
  illegalIfSet 4 0 76

/-! ### The checksum -/

/-- R110: the per-byte update as the rule's loop, and the rule's worked values. -/
def Obligations.CrcStepIsSpecLoop : Prop :=
  (∀ (r : Crc16) (b : Byte), crcStep r b =
    (fun x : Crc16 => if x.getLsbD 15 then (x <<< 1) ^^^ 0x1021#16 else x <<< 1)^[8] (r ^^^ (b.setWidth 16 <<< 8))) ∧
  crcStep 0x0000#16 0x00#8 = 0x0000#16 ∧ crcStep 0xFFFF#16 0x00#8 = 0xE1F0#16 ∧
  crcStep 0xFFFF#16 0xFF#8 = 0xFF00#16 ∧ crcStep 0xFFFF#16 0x32#8 = 0xF7E1#16

/-- R111: `crc_bytes` folds `crc_step`, and splits over concatenation. -/
def Obligations.CrcBytesFoldsCrcStep : Prop :=
  (∀ r : Crc16, crcBytes r [] = r) ∧
  (∀ (r : Crc16) (b : Byte) (t : List Byte), crcBytes r (b :: t) = crcBytes (crcStep r b) t) ∧
  (∀ (r : Crc16) (s t : List Byte), crcBytes r (s ++ t) = crcBytes (crcBytes r s) t) ∧
  crcBytes 0xFFFF#16 [] = 0xFFFF#16

/-- Derived from R110: the update is linear over XOR. -/
def Obligations.CrcStepIsLinear : Prop :=
  ∀ (r r' : Crc16) (b b' : Byte), crcStep (r ^^^ r') (b ^^^ b') = crcStep r b ^^^ crcStep r' b'

/-- R112 (a), (b): for fixed bytes the checksum is a bijection of the starting register. -/
def Obligations.CrcBytesIsBijection : Prop :=
  ∀ bytes : List Byte, Function.Bijective fun r : Crc16 => crcBytes r bytes

/-- R113: the two modes, the seed byte absorbed also when it is 0, and "The two modes produce different checksums for identical
frame content", for every header and payload, every id and every extension of the table. -/
def Obligations.SeededAndPlainChecksumsDiffer : Prop :=
  ∀ (ext : Config.ExtraExt) (id : MsgId) (header payload : List Byte),
    checksum16 ext .plain id header payload = crcBytes 0xFFFF#16 (header ++ payload) ∧
    checksum16 ext .seeded id header payload = crcBytes 0xFFFF#16 ([crcExtra ext id] ++ header ++ payload) ∧
    checksum16 ext .plain id header payload ≠ checksum16 ext .seeded id header payload ∧
    crcStep 0xFFFF#16 0x00#8 = 0xE1F0#16

/-- Derived from R110, R112 and R152: two frames of equal content that differ in the sequence byte differ in the checksum. (That
BOTH checksum bytes differ, as R240 remarks, does not follow and is false for some lengths: log 12.) -/
def Obligations.SequenceByteChangesChecksum : Prop :=
  ∀ (ext : Config.ExtraExt) (mode : CrcMode) (id : MsgId) (len : Nat) (sysid compid seq seq' : Byte) (payload : List Byte),
    seq ≠ seq' →
    checksum16 ext mode id (header10 len seq sysid compid id) payload ≠
      checksum16 ext mode id (header10 len seq' sysid compid id) payload

/-- R114: the listed ids, the custom range, EXTRA_EXT, and the default, for every admissible extension. -/
def Obligations.CrcExtraTable : Prop :=
  ∀ ext : Config.ExtraExt, Config.ExtraExtWf ext →
    (crcExtra ext 0 = 50 ∧ crcExtra ext 1 = 124 ∧ crcExtra ext 30 = 39 ∧ crcExtra ext 33 = 104 ∧ crcExtra ext 74 = 142 ∧
      crcExtra ext 253 = 83 ∧ crcExtra ext 251 = 170) ∧
    (∀ id : MsgId, 50000 ≤ id.toNat →
      crcExtra ext id = BitVec.ofNat 8 ((id.toNat % 256) ^^^ (id.toNat / 256 % 256))) ∧
    (∀ (id : MsgId) (e : Byte), (id, e) ∈ ext → crcExtra ext id = e) ∧
    ∀ id : MsgId, id.toNat < 50000 → id.toNat ∉ [0, 1, 30, 33, 74, 253, 251] → id ∉ ext.map Prod.fst →
      crcExtra ext id = 0

/-- R115: CRCINIT, in every state; a word with a bit of 75:0 set is illegal. -/
def Obligations.CrcInitSetsRegister : Prop :=
  (∀ s : State, exec .crcInit s = .next (succeedsWith 0x00FFFF#24 { s with crc := 0xFFFF#16 })) ∧ illegalIfSet 5 0 76

/-- R116: CRCBYTE, in every state; a word with a bit of 75:8 set is illegal. -/
def Obligations.CrcByteAbsorbsByte : Prop :=
  (∀ (b : Byte) (s : State),
    exec (.crcByte b) s = .next (succeedsWith ((crcStep s.crc b).setWidth 24) { s with crc := crcStep s.crc b })) ∧
  illegalIfSet 6 8 68

/-- R90: the expansion of CRCOF computes `crc_bytes(0xFFFF, bytes)` in any state and touches nothing but CRC; the last response
carries the checksum. -/
def Obligations.CrcOfComputesChecksum : Prop :=
  ∀ (bytes : List Byte) (s : State), ∃ rs last,
    execAll (crcOfCommands bytes) s = .next { s with
      crc := crcBytes 0xFFFF#16 bytes, responses := s.responses ++ (rs ++ [last]) } ∧
    rs.length = bytes.length ∧ last = successResponse ((crcBytes 0xFFFF#16 bytes).setWidth 24)

/-! ### Statements over all commands -/

/-- R200, R210, R211: an error response to a command word tells the whole effect of the word: which words raise which code, and
that the state is that of R210 for codes 3 to 6 and that of R211 for 2, 14 and 15. No other code is raised. -/
def Obligations.ErrorResponseTellsWholeEffect : Prop :=
  ∀ (s t : State) (w : CommandWord) (rest : List HostInput) (c : BitVec 4),
    s.inputs = .command w :: rest → step s = .next t → t.responses = s.responses ++ [errorResponse c] →
    (c.toNat ∈ [3, 4, 5] ∧ (∃ wt p e v, decode w = .ok (.field wt p e v)) ∧ t = abandonsWith c { s with inputs := rest }) ∨
    (c.toNat = 6 ∧ decode w = .ok .endEncode ∧ t = abandonsWith c { s with inputs := rest }) ∨
    (c.toNat = 2 ∧ (∃ m id, decode w = .ok (.beginEncode false m id)) ∧ t = refusesWith c { s with inputs := rest }) ∨
    (c.toNat = 14 ∧ ((∃ k m id, decode w = .ok (.beginEncode k m id)) ∨ (∃ wt p e v, decode w = .ok (.field wt p e v)) ∨
      decode w = .ok .endEncode ∨ decode w = .ok (.rdReg 3) ∨ decode w = .ok (.rdReg 4)) ∧
      t = refusesWith c { s with inputs := rest }) ∨
    (c.toNat = 15 ∧ illegalByRule w ∧ t = refusesWith c { s with inputs := rest })

/-- R26, R214: LASTERR is the code of an error response, is cleared by an accepted INIT and an accepted BEGIN, and is not changed by
any other successful command. -/
def Obligations.LastErrFollowsResponses : Prop :=
  ∀ (s t : State) (w : CommandWord) (rest : List HostInput), s.inputs = .command w :: rest → step s = .next t →
    (∃ c, t.responses = s.responses ++ [errorResponse c] ∧ t.lasterr = c) ∨
    ((∃ d, t.responses = s.responses ++ [successResponse d]) ∧
      t.lasterr = match decode w with
        | .ok (.init _ _) => 0
        | .ok (.beginEncode _ _ _) => 0
        | _ => s.lasterr)

/-- R153, R212: SEQ advances exactly when a frame is emitted, and the frame carries the value before the advance; INIT zeroes
it; no other command word, legal or not, and no error changes it. -/
def Obligations.SeqAdvancesExactlyOnEmission : Prop :=
  ∀ (s t : State) (w : CommandWord) (rest : List HostInput), s.inputs = .command w :: rest → step s = .next t →
    (decode w = .ok .endEncode ∧ t.seq = s.seq + 1 ∧ (∃ f, t.out = s.out ++ [f] ∧ f[4]? = some s.seq) ∧
      ∀ c, t.responses ≠ s.responses ++ [errorResponse c]) ∨
    ((∃ a b, decode w = .ok (.init a b)) ∧ t.seq = 0 ∧ t.out = s.out) ∨
    ((∀ a b, decode w ≠ .ok (.init a b)) ∧ t.seq = s.seq ∧ t.out = s.out ∧
      (decode w = .ok .endEncode → ∃ c, t.responses = s.responses ++ [errorResponse c]))

/-- R21 to R26, R28 to R32, R35, R130: each register is written only by the commands its own rule names, LASTERR by those and by
every error. That no command reads ahead of the host is the model's `inputs` (log 1); that none writes the parameter `extraExt`
is log 7, and that none advances the free-value counter `freeIndex` is log 4. -/
def Obligations.RegistersWrittenOnlyByTheirCommands : Prop :=
  ∀ (i : Instr) (s t : State), exec i s = .next t →
    ((∀ a b, i ≠ .init a b) → t.sysid = s.sysid ∧ t.compid = s.compid ∧ t.configured = s.configured) ∧
    ((∀ k m id, i ≠ .beginEncode k m id) → t.msgid = s.msgid ∧ t.mode = s.mode) ∧
    (i ≠ .crcInit → (∀ b, i ≠ .crcByte b) → i ≠ .endEncode → t.crc = s.crc) ∧
    (i ≠ .endEncode → t.out = s.out) ∧
    ((∀ a b, i ≠ .init a b) → i ≠ .endEncode → t.seq = s.seq) ∧
    ((∀ c, t.responses ≠ s.responses ++ [errorResponse c]) → (∀ a b, i ≠ .init a b) → (∀ k m id, i ≠ .beginEncode k m id) →
      t.lasterr = s.lasterr) ∧
    ((∀ c, t.responses ≠ s.responses ++ [errorResponse c]) → (∃ wt p e v, i = .field wt p e v) → t.phase = s.phase) ∧
    ((i = .crcInit ∨ (∃ b, i = .crcByte b) ∨ ∃ r, i = .rdReg r) →
      t.phase = s.phase ∧ t.plen = s.plen ∧ t.pbuf = s.pbuf) ∧
    t.inputs = s.inputs ∧ t.extraExt = s.extraExt ∧ t.freeIndex = s.freeIndex

/-- R175: the next PHASE of every command in every state. -/
def Obligations.PhaseMachineTable : Prop :=
  ∀ (i : Instr) (s : State), ∃ t, exec i s = .next t ∧ t.phase =
    match i with
    | .init _ _ => .idle
    | .beginEncode known _ _ => if s.configured = true ∧ s.phase = .idle ∧ known = true then .collect else s.phase
    | .field wt present empty value =>
      match s.phase, packField wt present empty value.toInt with
      | .collect, .ok _ => .collect
      | _, _ => .idle
    | .endEncode => .idle
    | .crcInit => s.phase
    | .crcByte _ => s.phase
    | .rdReg _ => s.phase

/-- R234: before INIT exactly BEGIN, FIELD, END and RDREG 3, 4 are refused with ProtocolViolation, and the other commands succeed. -/
def Obligations.CommandsBeforeInit : Prop :=
  ∀ (i : Instr) (s : State), s.Inv → s.configured = false → i.wf = true →
    (((∃ k m id, i = .beginEncode k m id) ∨ (∃ wt p e v, i = .field wt p e v) ∨ i = .endEncode ∨ i = .rdReg 3 ∨ i = .rdReg 4) →
      exec i s = .next (refusesWith 14 s)) ∧
    (((∃ a b, i = .init a b) ∨ i = .crcInit ∨ (∃ b, i = .crcByte b) ∨
      ∃ r : BitVec 4, r ≠ 3 ∧ r ≠ 4 ∧ i = .rdReg r) →
      ∃ t d, exec i s = .next t ∧ t.responses = s.responses ++ [successResponse d])

/-! ### Runs -/

/-- Presenting the words of a list of well-formed instructions and stepping once for each is executing the list. -/
def Obligations.PresentedWordsRunInOrder : Prop :=
  ∀ (is : List Instr) (s : State) (rest : List HostInput), (∀ i ∈ is, i.wf = true) → s.inputs = presented is ++ rest →
    ∃ t, execAll is { s with inputs := rest } = .next t ∧ runSteps is.length s = .next t

/-- R174: a complete encode, issued in IDLE with CONFIGURED = 1 as a sequence of command words, gives what the function `encode` gives: the
frame and the new SEQ, or the error and nothing emitted. -/
def Obligations.EncodeRunMatchesEncodeFunction : Prop :=
  ∀ (known : Bool) (mode : CrcMode) (msgid : MsgId) (fields : List FieldOperands) (s : State) (rest : List HostInput),
    s.Inv → s.configured = true → s.phase = .idle →
    s.inputs = presented (encodeCommands known mode msgid fields) ++ rest →
    ∃ t rs, runSteps (encodeCommands known mode msgid fields).length s = .next t ∧ t.inputs = rest ∧
      t.phase = .idle ∧ t.sysid = s.sysid ∧ t.compid = s.compid ∧ t.responses = s.responses ++ rs ∧
      t.seq = (encodeMessage s.extraExt known mode msgid fields s.sysid s.compid s.seq).2 ∧
      match (encodeMessage s.extraExt known mode msgid fields s.sysid s.compid s.seq).1 with
      | .ok frame => t.out = s.out ++ [frame] ∧ firstErrorCode rs = none
      | .error e => t.out = s.out ∧ firstErrorCode rs = some e.code

/-- R176 (3), R38 (d), R60: within one session the frames emitted carry successive sequence values modulo 256, and SEQ is the first
one plus the number of frames. -/
def Obligations.SessionFramesCarrySuccessiveSequence : Prop :=
  ∀ (n : Nat) (s t : State), (∀ x ∈ s.inputs, staysInSession x = true) → runSteps n s = .next t →
    ∃ frames, t.out = s.out ++ frames ∧ t.seq = s.seq + BitVec.ofNat 8 frames.length ∧
      ∀ k f, frames[k]? = some f → f[4]? = some (s.seq + BitVec.ofNat 8 k)

/-- R21, R22, R231: what SYSID and COMPID hold before INIT cannot leak: two runs that differ only there answer and emit the same, and
agree in every register but those two until an INIT, and in all after it. -/
def Obligations.UnconfiguredSenderIdsDoNotLeak : Prop :=
  ∀ (n : Nat) (s t : State), s.Inv → agreesButUnconfiguredIds s t →
    ∃ s' t', runSteps n s = .next s' ∧ runSteps n t = .next t' ∧ agreesButUnconfiguredIds s' t'
end

