-- ==== Sys2Proof/Laws/Word.lean ====
section
/-! SUPPORT. Fields of a word that is written as its fields joined, most significant first. -/

namespace Sys2Proof

/-- The lowest field. -/
theorem extract_append_low {m n : Nat} (hi : BitVec m) (lo : BitVec n) : (hi ++ lo).extractLsb' 0 n = lo := by
  ext k hk
  simp [BitVec.getLsbD_append, hk]

/-- A field above the lowest one is a field of the rest. -/
theorem extract_append_skip {m n : Nat} (s l : Nat) (hi : BitVec m) (lo : BitVec n) :
    (hi ++ lo).extractLsb' (n + s) l = hi.extractLsb' s l := by
  ext k hk
  have : ¬ n + s + k < n := by omega
  simp [BitVec.getLsbD_append, this, show n + s + k - n = s + k by omega]

/-- A field inside the lowest one. -/
theorem extract_append_keep {m n : Nat} (s l : Nat) (hi : BitVec m) (lo : BitVec n) (h : s + l ≤ n) :
    (hi ++ lo).extractLsb' s l = lo.extractLsb' s l := by
  ext k hk
  simp [BitVec.getLsbD_append, show s + k < n by omega]

/-- The whole of a word is its own field. -/
theorem extract_all {n : Nat} (x : BitVec n) : x.extractLsb' 0 n = x := by
  ext k hk
  simp

/-- Two neighbouring fields joined are the field that spans both. -/
theorem append_extract {n : Nat} (x : BitVec n) (s l m : Nat) :
    x.extractLsb' (s + l) m ++ x.extractLsb' s l = x.extractLsb' s (m + l) := by
  ext k hk
  rw [BitVec.getElem_append]
  by_cases h : k < l
  · simp [h]
  · simp [h, show s + l + (k - l) = s + k by omega]

end Sys2Proof
end

