-- ==== Sys2Proof/Laws/Checksum.lean ====
section
/-! SUPPORT. The rounds of the checksum update, look-up in a finite map, and the length of a frame. -/

namespace Sys2Proof.Machine

/-- A round is linear over XOR. -/
theorem crcRound_xor (x y : Crc16) : crcRound (x ^^^ y) = crcRound x ^^^ crcRound y := by
  unfold crcRound
  rw [BitVec.msb_xor]
  cases x.msb <;> cases y.msb <;> simp [BitVec.shiftLeft_xor_distrib]
  · ac_rfl
  · ac_rfl
  · rw [show x <<< 1 ^^^ crcPoly ^^^ (y <<< 1 ^^^ crcPoly) = x <<< 1 ^^^ y <<< 1 ^^^ (crcPoly ^^^ crcPoly) by ac_rfl]
    simp

theorem crcRounds_xor (n : Nat) (x y : Crc16) : crcRounds n (x ^^^ y) = crcRounds n x ^^^ crcRounds n y := by
  induction n generalizing x y with
  | zero => rfl
  | succ n ih => simp only [crcRounds, crcRound_xor, ih]

/-- A round is invertible, because bit 0 of the polynomial is 1. -/
theorem crcRound_injective : Function.Injective crcRound := by
  have z : ∀ x, crcRound x = 0#16 → x = 0#16 := by
    intro x h
    unfold crcRound at h
    have h0 := congrArg (fun y => y.getLsbD 0) h
    split at h
    · rw [if_pos ‹_›] at h0
      simp [crcPoly] at h0
    · next hm =>
      ext k hk
      rcases Nat.lt_or_ge k 15 with h1 | h1
      · have := congrArg (fun y => y.getLsbD (k + 1)) h
        simp at this
        simp
        rw [← BitVec.getLsbD_eq_getElem]
        exact this (by omega)
      · have : k = 15 := by omega
        subst this
        simp [BitVec.msb_eq_getLsbD_last] at hm
        simpa using hm
  intro x y h
  exact BitVec.xor_eq_zero_iff.1 (z _ (by rw [crcRound_xor, h]; simp))

/-- The look-up of a key of a map with distinct keys gives its value. -/
theorem lookupPair_of_mem {id : MsgId} {e : Byte} :
    ∀ {ext : Config.ExtraExt}, (ext.map Prod.fst).Nodup → (id, e) ∈ ext → lookupPair id ext = some e
  | p :: t, hn, hm => by
    simp only [List.map_cons, List.nodup_cons] at hn
    simp only [lookupPair]
    rcases List.mem_cons.1 hm with rfl | hm
    · simp
    · have hne : p.1 ≠ id := fun hh => hn.1 (hh ▸ List.mem_map_of_mem hm)
      rw [if_neg hne]
      exact lookupPair_of_mem hn.2 hm

/-- The look-up of what is no key gives nothing. -/
theorem lookupPair_of_not_mem {id : MsgId} :
    ∀ {ext : Config.ExtraExt}, id ∉ ext.map Prod.fst → lookupPair id ext = none
  | [], _ => rfl
  | p :: t, h => by
    simp only [List.map_cons, List.mem_cons, not_or] at h
    simp only [lookupPair]
    rw [if_neg (Ne.symm h.1)]
    exact lookupPair_of_not_mem h.2

@[simp] theorem header10_length (len : Nat) (seq sysid compid : Byte) (id : MsgId) :
    (header10 len seq sysid compid id).length = 10 := rfl

@[simp] theorem frameBytes_length (h p : List Byte) (c : Crc16) : (frameBytes h p c).length = 3 + h.length + p.length := by
  simp [frameBytes]
  omega

/-- The checksum a frame carries is the one it was built with. -/
theorem frameCrc_frameBytes (h p : List Byte) (c : Crc16) : frameCrc (frameBytes h p c) = c := by
  unfold frameCrc
  rw [frameBytes_length]
  unfold frameBytes
  have e1 : ([startByte] ++ h ++ p ++ [c.extractLsb' 0 8, c.extractLsb' 8 8]).getD (3 + h.length + p.length - 1) 0 =
      c.extractLsb' 8 8 := by
    rw [List.getD_eq_getElem?_getD, List.getElem?_append_right (by simp; omega)]
    simp [show 3 + h.length + p.length - 1 - (h.length + p.length + 1) = 1 by omega]
  have e2 : ([startByte] ++ h ++ p ++ [c.extractLsb' 0 8, c.extractLsb' 8 8]).getD (3 + h.length + p.length - 2) 0 =
      c.extractLsb' 0 8 := by
    rw [List.getD_eq_getElem?_getD, List.getElem?_append_right (by simp; omega)]
    simp [show 3 + h.length + p.length - 2 - (h.length + p.length + 1) = 0 by omega]
  rw [e1, e2, append_extract c 0 8 8]
  exact extract_all c

/-- The bytes a frame's checksum covers are the header and the payload it was built from. -/
theorem frameCovered_frameBytes (h p : List Byte) (c : Crc16) : frameCovered (frameBytes h p c) = h ++ p := by
  unfold frameCovered
  rw [frameBytes_length]
  simp only [frameBytes, List.cons_append, List.nil_append, List.drop_succ_cons, List.drop_zero]
  rw [List.take_append_of_le_length (by simp; omega), List.take_of_length_le (by simp; omega)]

end Sys2Proof.Machine
end

