-- ==== Sys2Proof/Laws/Operands.lean ====
section
/-! SUPPORT. What the WireTypeMap, the byte patterns `le` and `tc`, and `pack_field` can give. -/

namespace Sys2Proof.Machine

theorem wireTypeOf_eq_char (wt : BitVec 4) : wireTypeOf wt = some .char ↔ wt = 10 := by revert wt; decide

theorem wireTypeOf_eq_none (wt : BitVec 4) : wireTypeOf wt = none ↔ 11 ≤ wt.toNat := by revert wt; decide

@[simp] theorem le_length (n w : Nat) : (le n w).length = w := by
  induction w generalizing n with
  | zero => rfl
  | succ w ih => simp [le, ih]

/-- `le` byte by byte. -/
theorem le_eq_map (n w : Nat) : le n w = (List.range w).map fun k => BitVec.ofNat 8 (n / 2 ^ (8 * k)) := by
  induction w generalizing n with
  | zero => rfl
  | succ w ih =>
    rw [List.range_succ_eq_map]
    simp [le, ih]
    intro a _
    congr 1
    rw [Nat.div_div_eq_div_mul, show 8 * (a + 1) = 8 + 8 * a by ring, pow_add]
    norm_num

/-- `tc` is the residue modulo `2 ^ (8w)`, a natural number below it. -/
theorem tc_lt (v : Int) (w : Nat) : tc v w < 2 ^ (8 * w) := by
  unfold tc
  have : 0 < (2 ^ (8 * w) : Nat) := by positivity
  have h1 := Int.emod_nonneg v (b := ((2 ^ (8 * w) : Nat) : Int)) (by positivity)
  have h2 := Int.emod_lt_of_pos v (b := ((2 ^ (8 * w) : Nat) : Int)) (by positivity)
  omega

@[simp] theorem valueBytes_length (t : WireType) (v : Int) : (valueBytes t v).length = wtWidth t := by
  unfold valueBytes
  split <;> exact le_length _ _

/-- Everything `pack_field` can answer, with when it does. -/
theorem packField_cases (wt : BitVec 4) (present empty : Bool) (v : Int) :
    (present = false ∧ packField wt present empty v = .error .missingFieldValue) ∨
    (present = true ∧ wireTypeOf wt = none ∧ packField wt present empty v = .error .unsupportedFieldType) ∨
    (present = true ∧ wireTypeOf wt = some .char ∧ empty = true ∧ packField wt present empty v = .ok [emptyCharByte]) ∨
    ∃ t, present = true ∧ wireTypeOf wt = some t ∧ ¬(t = .char ∧ empty = true) ∧
      (((v < wtLo t ∨ wtHi t < v) ∧ packField wt present empty v = .error .valueOutOfRange) ∨
        (wtLo t ≤ v ∧ v ≤ wtHi t ∧ packField wt present empty v = .ok (valueBytes t v))) := by
  cases present
  · exact .inl ⟨rfl, by simp [packField]⟩
  · cases ht : wireTypeOf wt with
    | none => exact .inr (.inl ⟨rfl, rfl, by simp [packField, ht]⟩)
    | some t =>
      by_cases hc : t = .char ∧ empty = true
      · exact .inr (.inr (.inl ⟨rfl, by rw [hc.1], hc.2, by simp [packField, ht, hc]⟩))
      · refine .inr (.inr (.inr ⟨t, rfl, rfl, hc, ?_⟩))
        by_cases hr : v < wtLo t ∨ wtHi t < v
        · exact .inl ⟨hr, by simp only [packField, ht, hc, hr]; simp⟩
        · exact .inr ⟨by omega, by omega, by simp only [packField, ht, hc, hr]; simp⟩

/-- The errors `pack_field` can answer are three, each of which abandons the encode. -/
theorem packField_error_kind {wt : BitVec 4} {present empty : Bool} {v : Int} {e : ErrorKind}
    (h : packField wt present empty v = .error e) :
    (e = .missingFieldValue ∨ e = .unsupportedFieldType ∨ e = .valueOutOfRange) ∧ e.abandonsEncode = true := by
  rcases packField_cases wt present empty v with ⟨-, h'⟩ | ⟨-, -, h'⟩ | ⟨-, -, -, h'⟩ | ⟨t, -, -, -, ⟨-, h'⟩ | ⟨-, -, h'⟩⟩ <;>
    rw [h] at h' <;> cases h' <;> simp [ErrorKind.abandonsEncode]

end Sys2Proof.Machine
end

