-- ==== Sys2Proof/Laws/State.lean ====
section
/-! SUPPORT. One lemma per field per update, each true by rfl, so that no proof unfolds a record update. -/

namespace Sys2Proof.Machine

@[simp] theorem respond_sysid (r : ResponseWord) (s : State) : (respond r s).sysid = s.sysid := rfl
@[simp] theorem respond_compid (r : ResponseWord) (s : State) : (respond r s).compid = s.compid := rfl
@[simp] theorem respond_seq (r : ResponseWord) (s : State) : (respond r s).seq = s.seq := rfl
@[simp] theorem respond_configured (r : ResponseWord) (s : State) : (respond r s).configured = s.configured := rfl
@[simp] theorem respond_phase (r : ResponseWord) (s : State) : (respond r s).phase = s.phase := rfl
@[simp] theorem respond_lasterr (r : ResponseWord) (s : State) : (respond r s).lasterr = s.lasterr := rfl
@[simp] theorem respond_msgid (r : ResponseWord) (s : State) : (respond r s).msgid = s.msgid := rfl
@[simp] theorem respond_mode (r : ResponseWord) (s : State) : (respond r s).mode = s.mode := rfl
@[simp] theorem respond_plen (r : ResponseWord) (s : State) : (respond r s).plen = s.plen := rfl
@[simp] theorem respond_pbuf (r : ResponseWord) (s : State) : (respond r s).pbuf = s.pbuf := rfl
@[simp] theorem respond_crc (r : ResponseWord) (s : State) : (respond r s).crc = s.crc := rfl
@[simp] theorem respond_out (r : ResponseWord) (s : State) : (respond r s).out = s.out := rfl
@[simp] theorem respond_inputs (r : ResponseWord) (s : State) : (respond r s).inputs = s.inputs := rfl
@[simp] theorem respond_responses (r : ResponseWord) (s : State) : (respond r s).responses = s.responses ++ [r] := rfl
@[simp] theorem respond_extraExt (r : ResponseWord) (s : State) : (respond r s).extraExt = s.extraExt := rfl
@[simp] theorem respond_freeIndex (r : ResponseWord) (s : State) : (respond r s).freeIndex = s.freeIndex := rfl

@[simp] theorem raise_sysid (e : ErrorKind) (s : State) : (raise e s).sysid = s.sysid := rfl
@[simp] theorem raise_compid (e : ErrorKind) (s : State) : (raise e s).compid = s.compid := rfl
@[simp] theorem raise_seq (e : ErrorKind) (s : State) : (raise e s).seq = s.seq := rfl
@[simp] theorem raise_configured (e : ErrorKind) (s : State) : (raise e s).configured = s.configured := rfl
@[simp] theorem raise_phase (e : ErrorKind) (s : State) : (raise e s).phase = if e.abandonsEncode then .idle else s.phase := rfl
@[simp] theorem raise_lasterr (e : ErrorKind) (s : State) : (raise e s).lasterr = e.code := rfl
@[simp] theorem raise_msgid (e : ErrorKind) (s : State) : (raise e s).msgid = s.msgid := rfl
@[simp] theorem raise_mode (e : ErrorKind) (s : State) : (raise e s).mode = s.mode := rfl
@[simp] theorem raise_plen (e : ErrorKind) (s : State) : (raise e s).plen = if e.abandonsEncode then 0 else s.plen := rfl
@[simp] theorem raise_pbuf (e : ErrorKind) (s : State) : (raise e s).pbuf = if e.abandonsEncode then [] else s.pbuf := rfl
@[simp] theorem raise_crc (e : ErrorKind) (s : State) : (raise e s).crc = s.crc := rfl
@[simp] theorem raise_out (e : ErrorKind) (s : State) : (raise e s).out = s.out := rfl
@[simp] theorem raise_inputs (e : ErrorKind) (s : State) : (raise e s).inputs = s.inputs := rfl
@[simp] theorem raise_responses (e : ErrorKind) (s : State) : (raise e s).responses = s.responses ++ [errWord e.code] := rfl
@[simp] theorem raise_extraExt (e : ErrorKind) (s : State) : (raise e s).extraExt = s.extraExt := rfl
@[simp] theorem raise_freeIndex (e : ErrorKind) (s : State) : (raise e s).freeIndex = s.freeIndex := rfl

@[simp] theorem appendPayload_sysid (b : List Byte) (s : State) : (appendPayload b s).sysid = s.sysid := rfl
@[simp] theorem appendPayload_compid (b : List Byte) (s : State) : (appendPayload b s).compid = s.compid := rfl
@[simp] theorem appendPayload_seq (b : List Byte) (s : State) : (appendPayload b s).seq = s.seq := rfl
@[simp] theorem appendPayload_configured (b : List Byte) (s : State) : (appendPayload b s).configured = s.configured := rfl
@[simp] theorem appendPayload_phase (b : List Byte) (s : State) : (appendPayload b s).phase = s.phase := rfl
@[simp] theorem appendPayload_lasterr (b : List Byte) (s : State) : (appendPayload b s).lasterr = s.lasterr := rfl
@[simp] theorem appendPayload_msgid (b : List Byte) (s : State) : (appendPayload b s).msgid = s.msgid := rfl
@[simp] theorem appendPayload_mode (b : List Byte) (s : State) : (appendPayload b s).mode = s.mode := rfl
@[simp] theorem appendPayload_plen (b : List Byte) (s : State) : (appendPayload b s).plen = plenAfter s.plen b.length := rfl
@[simp] theorem appendPayload_pbuf (b : List Byte) (s : State) : (appendPayload b s).pbuf = memWrite s.plen.val b s.pbuf := rfl
@[simp] theorem appendPayload_crc (b : List Byte) (s : State) : (appendPayload b s).crc = s.crc := rfl
@[simp] theorem appendPayload_out (b : List Byte) (s : State) : (appendPayload b s).out = s.out := rfl
@[simp] theorem appendPayload_inputs (b : List Byte) (s : State) : (appendPayload b s).inputs = s.inputs := rfl
@[simp] theorem appendPayload_responses (b : List Byte) (s : State) : (appendPayload b s).responses = s.responses := rfl
@[simp] theorem appendPayload_extraExt (b : List Byte) (s : State) : (appendPayload b s).extraExt = s.extraExt := rfl
@[simp] theorem appendPayload_freeIndex (b : List Byte) (s : State) : (appendPayload b s).freeIndex = s.freeIndex := rfl

@[simp] theorem clearPayload_sysid (s : State) : (clearPayload s).sysid = s.sysid := rfl
@[simp] theorem clearPayload_compid (s : State) : (clearPayload s).compid = s.compid := rfl
@[simp] theorem clearPayload_seq (s : State) : (clearPayload s).seq = s.seq := rfl
@[simp] theorem clearPayload_configured (s : State) : (clearPayload s).configured = s.configured := rfl
@[simp] theorem clearPayload_phase (s : State) : (clearPayload s).phase = s.phase := rfl
@[simp] theorem clearPayload_lasterr (s : State) : (clearPayload s).lasterr = s.lasterr := rfl
@[simp] theorem clearPayload_msgid (s : State) : (clearPayload s).msgid = s.msgid := rfl
@[simp] theorem clearPayload_mode (s : State) : (clearPayload s).mode = s.mode := rfl
@[simp] theorem clearPayload_plen (s : State) : (clearPayload s).plen = 0 := rfl
@[simp] theorem clearPayload_pbuf (s : State) : (clearPayload s).pbuf = [] := rfl
@[simp] theorem clearPayload_crc (s : State) : (clearPayload s).crc = s.crc := rfl
@[simp] theorem clearPayload_out (s : State) : (clearPayload s).out = s.out := rfl
@[simp] theorem clearPayload_inputs (s : State) : (clearPayload s).inputs = s.inputs := rfl
@[simp] theorem clearPayload_responses (s : State) : (clearPayload s).responses = s.responses := rfl
@[simp] theorem clearPayload_extraExt (s : State) : (clearPayload s).extraExt = s.extraExt := rfl
@[simp] theorem clearPayload_freeIndex (s : State) : (clearPayload s).freeIndex = s.freeIndex := rfl

@[simp] theorem emit_sysid (f : List Byte) (s : State) : (emit f s).sysid = s.sysid := rfl
@[simp] theorem emit_compid (f : List Byte) (s : State) : (emit f s).compid = s.compid := rfl
@[simp] theorem emit_seq (f : List Byte) (s : State) : (emit f s).seq = s.seq := rfl
@[simp] theorem emit_configured (f : List Byte) (s : State) : (emit f s).configured = s.configured := rfl
@[simp] theorem emit_phase (f : List Byte) (s : State) : (emit f s).phase = s.phase := rfl
@[simp] theorem emit_lasterr (f : List Byte) (s : State) : (emit f s).lasterr = s.lasterr := rfl
@[simp] theorem emit_msgid (f : List Byte) (s : State) : (emit f s).msgid = s.msgid := rfl
@[simp] theorem emit_mode (f : List Byte) (s : State) : (emit f s).mode = s.mode := rfl
@[simp] theorem emit_plen (f : List Byte) (s : State) : (emit f s).plen = s.plen := rfl
@[simp] theorem emit_pbuf (f : List Byte) (s : State) : (emit f s).pbuf = s.pbuf := rfl
@[simp] theorem emit_crc (f : List Byte) (s : State) : (emit f s).crc = s.crc := rfl
@[simp] theorem emit_out (f : List Byte) (s : State) : (emit f s).out = s.out ++ [f] := rfl
@[simp] theorem emit_inputs (f : List Byte) (s : State) : (emit f s).inputs = s.inputs := rfl
@[simp] theorem emit_responses (f : List Byte) (s : State) : (emit f s).responses = s.responses := rfl
@[simp] theorem emit_extraExt (f : List Byte) (s : State) : (emit f s).extraExt = s.extraExt := rfl
@[simp] theorem emit_freeIndex (f : List Byte) (s : State) : (emit f s).freeIndex = s.freeIndex := rfl

@[simp] theorem presentNext_sysid (w : CommandWord) (s : State) : (presentNext w s).sysid = s.sysid := rfl
@[simp] theorem presentNext_compid (w : CommandWord) (s : State) : (presentNext w s).compid = s.compid := rfl
@[simp] theorem presentNext_seq (w : CommandWord) (s : State) : (presentNext w s).seq = s.seq := rfl
@[simp] theorem presentNext_configured (w : CommandWord) (s : State) : (presentNext w s).configured = s.configured := rfl
@[simp] theorem presentNext_phase (w : CommandWord) (s : State) : (presentNext w s).phase = s.phase := rfl
@[simp] theorem presentNext_lasterr (w : CommandWord) (s : State) : (presentNext w s).lasterr = s.lasterr := rfl
@[simp] theorem presentNext_msgid (w : CommandWord) (s : State) : (presentNext w s).msgid = s.msgid := rfl
@[simp] theorem presentNext_mode (w : CommandWord) (s : State) : (presentNext w s).mode = s.mode := rfl
@[simp] theorem presentNext_plen (w : CommandWord) (s : State) : (presentNext w s).plen = s.plen := rfl
@[simp] theorem presentNext_pbuf (w : CommandWord) (s : State) : (presentNext w s).pbuf = s.pbuf := rfl
@[simp] theorem presentNext_crc (w : CommandWord) (s : State) : (presentNext w s).crc = s.crc := rfl
@[simp] theorem presentNext_out (w : CommandWord) (s : State) : (presentNext w s).out = s.out := rfl
@[simp] theorem presentNext_inputs (w : CommandWord) (s : State) : (presentNext w s).inputs = .command w :: s.inputs := rfl
@[simp] theorem presentNext_responses (w : CommandWord) (s : State) : (presentNext w s).responses = s.responses := rfl
@[simp] theorem presentNext_extraExt (w : CommandWord) (s : State) : (presentNext w s).extraExt = s.extraExt := rfl
@[simp] theorem presentNext_freeIndex (w : CommandWord) (s : State) : (presentNext w s).freeIndex = s.freeIndex := rfl

@[simp] theorem openEncode_sysid (m : CrcMode) (id : MsgId) (s : State) : (openEncode m id s).sysid = s.sysid := rfl
@[simp] theorem openEncode_compid (m : CrcMode) (id : MsgId) (s : State) : (openEncode m id s).compid = s.compid := rfl
@[simp] theorem openEncode_seq (m : CrcMode) (id : MsgId) (s : State) : (openEncode m id s).seq = s.seq := rfl
@[simp] theorem openEncode_configured (m : CrcMode) (id : MsgId) (s : State) : (openEncode m id s).configured = s.configured := rfl
@[simp] theorem openEncode_phase (m : CrcMode) (id : MsgId) (s : State) : (openEncode m id s).phase = .collect := rfl
@[simp] theorem openEncode_lasterr (m : CrcMode) (id : MsgId) (s : State) : (openEncode m id s).lasterr = 0 := rfl
@[simp] theorem openEncode_msgid (m : CrcMode) (id : MsgId) (s : State) : (openEncode m id s).msgid = id := rfl
@[simp] theorem openEncode_mode (m : CrcMode) (id : MsgId) (s : State) : (openEncode m id s).mode = m := rfl
@[simp] theorem openEncode_plen (m : CrcMode) (id : MsgId) (s : State) : (openEncode m id s).plen = 0 := rfl
@[simp] theorem openEncode_pbuf (m : CrcMode) (id : MsgId) (s : State) : (openEncode m id s).pbuf = [] := rfl
@[simp] theorem openEncode_crc (m : CrcMode) (id : MsgId) (s : State) : (openEncode m id s).crc = s.crc := rfl
@[simp] theorem openEncode_out (m : CrcMode) (id : MsgId) (s : State) : (openEncode m id s).out = s.out := rfl
@[simp] theorem openEncode_inputs (m : CrcMode) (id : MsgId) (s : State) : (openEncode m id s).inputs = s.inputs := rfl
@[simp] theorem openEncode_responses (m : CrcMode) (id : MsgId) (s : State) : (openEncode m id s).responses = s.responses := rfl
@[simp] theorem openEncode_extraExt (m : CrcMode) (id : MsgId) (s : State) : (openEncode m id s).extraExt = s.extraExt := rfl
@[simp] theorem openEncode_freeIndex (m : CrcMode) (id : MsgId) (s : State) : (openEncode m id s).freeIndex = s.freeIndex := rfl

@[simp] theorem newSession_sysid (a b : Byte) (s : State) : (newSession a b s).sysid = a := rfl
@[simp] theorem newSession_compid (a b : Byte) (s : State) : (newSession a b s).compid = b := rfl
@[simp] theorem newSession_seq (a b : Byte) (s : State) : (newSession a b s).seq = 0 := rfl
@[simp] theorem newSession_configured (a b : Byte) (s : State) : (newSession a b s).configured = true := rfl
@[simp] theorem newSession_phase (a b : Byte) (s : State) : (newSession a b s).phase = .idle := rfl
@[simp] theorem newSession_lasterr (a b : Byte) (s : State) : (newSession a b s).lasterr = 0 := rfl
@[simp] theorem newSession_msgid (a b : Byte) (s : State) : (newSession a b s).msgid = s.msgid := rfl
@[simp] theorem newSession_mode (a b : Byte) (s : State) : (newSession a b s).mode = s.mode := rfl
@[simp] theorem newSession_plen (a b : Byte) (s : State) : (newSession a b s).plen = 0 := rfl
@[simp] theorem newSession_pbuf (a b : Byte) (s : State) : (newSession a b s).pbuf = [] := rfl
@[simp] theorem newSession_crc (a b : Byte) (s : State) : (newSession a b s).crc = s.crc := rfl
@[simp] theorem newSession_out (a b : Byte) (s : State) : (newSession a b s).out = s.out := rfl
@[simp] theorem newSession_inputs (a b : Byte) (s : State) : (newSession a b s).inputs = s.inputs := rfl
@[simp] theorem newSession_responses (a b : Byte) (s : State) : (newSession a b s).responses = s.responses := rfl
@[simp] theorem newSession_extraExt (a b : Byte) (s : State) : (newSession a b s).extraExt = s.extraExt := rfl
@[simp] theorem newSession_freeIndex (a b : Byte) (s : State) : (newSession a b s).freeIndex = s.freeIndex := rfl

@[simp] theorem buildFrame_sysid (s : State) : (buildFrame s).sysid = s.sysid := rfl
@[simp] theorem buildFrame_compid (s : State) : (buildFrame s).compid = s.compid := rfl
@[simp] theorem buildFrame_seq (s : State) : (buildFrame s).seq = s.seq + 1 := rfl
@[simp] theorem buildFrame_configured (s : State) : (buildFrame s).configured = s.configured := rfl
@[simp] theorem buildFrame_phase (s : State) : (buildFrame s).phase = .idle := rfl
@[simp] theorem buildFrame_lasterr (s : State) : (buildFrame s).lasterr = s.lasterr := rfl
@[simp] theorem buildFrame_msgid (s : State) : (buildFrame s).msgid = s.msgid := rfl
@[simp] theorem buildFrame_mode (s : State) : (buildFrame s).mode = s.mode := rfl
@[simp] theorem buildFrame_plen (s : State) : (buildFrame s).plen = 0 := rfl
@[simp] theorem buildFrame_pbuf (s : State) : (buildFrame s).pbuf = [] := rfl
@[simp] theorem buildFrame_crc (s : State) : (buildFrame s).crc = endChecksum s := rfl
@[simp] theorem buildFrame_out (s : State) : (buildFrame s).out = s.out ++ [endFrame s] := rfl
@[simp] theorem buildFrame_inputs (s : State) : (buildFrame s).inputs = s.inputs := rfl
@[simp] theorem buildFrame_responses (s : State) : (buildFrame s).responses = s.responses := rfl
@[simp] theorem buildFrame_extraExt (s : State) : (buildFrame s).extraExt = s.extraExt := rfl
@[simp] theorem buildFrame_freeIndex (s : State) : (buildFrame s).freeIndex = s.freeIndex := rfl

@[simp] theorem hardwareReset_sysid (s : State) : (hardwareReset s).sysid = Config.unspecifiedSenderId s.freeIndex := rfl
@[simp] theorem hardwareReset_compid (s : State) : (hardwareReset s).compid = Config.unspecifiedSenderId (s.freeIndex + 1) := rfl
@[simp] theorem hardwareReset_seq (s : State) : (hardwareReset s).seq = 0 := rfl
@[simp] theorem hardwareReset_configured (s : State) : (hardwareReset s).configured = false := rfl
@[simp] theorem hardwareReset_phase (s : State) : (hardwareReset s).phase = .idle := rfl
@[simp] theorem hardwareReset_lasterr (s : State) : (hardwareReset s).lasterr = 0 := rfl
@[simp] theorem hardwareReset_msgid (s : State) : (hardwareReset s).msgid = 0 := rfl
@[simp] theorem hardwareReset_mode (s : State) : (hardwareReset s).mode = .plain := rfl
@[simp] theorem hardwareReset_plen (s : State) : (hardwareReset s).plen = 0 := rfl
@[simp] theorem hardwareReset_pbuf (s : State) : (hardwareReset s).pbuf = [] := rfl
@[simp] theorem hardwareReset_crc (s : State) : (hardwareReset s).crc = 0xFFFF#16 := rfl
@[simp] theorem hardwareReset_out (s : State) : (hardwareReset s).out = [] := rfl
@[simp] theorem hardwareReset_inputs (s : State) : (hardwareReset s).inputs = s.inputs := rfl
@[simp] theorem hardwareReset_responses (s : State) : (hardwareReset s).responses = [] := rfl
@[simp] theorem hardwareReset_extraExt (s : State) : (hardwareReset s).extraExt = s.extraExt := rfl
@[simp] theorem hardwareReset_freeIndex (s : State) : (hardwareReset s).freeIndex = s.freeIndex + 2 := rfl

end Sys2Proof.Machine
end

