-- ==== Sys2Proof/Laws/Ops.lean ====
section
/-! SUPPORT. One lemma for each shared operation of Machine/Ops.lean that says all it does, the form of PBUF kept by every
operation, and the reads of PBUF after a write. -/

namespace Sys2Proof.Machine

/-! ### Responses and errors -/

theorem errWord_eq (c : BitVec 4) : errWord c = errorResponse c := by
  revert c; decide

theorem okWord_eq (d : BitVec 24) : okWord d = successResponse d := by
  unfold okWord successResponse
  ext k hk
  simp
  grind

/-- A command that ends in `respond OK(d)` adds that response and nothing else. -/
theorem respond_okWord (d : BitVec 24) (s : State) : respond (okWord d) s = succeedsWith d s := by
  simp [respond, succeedsWith, okWord_eq]

/-- Raising an error does one of two things: R210 for the kinds that abandon the encode, R211 for the others. -/
theorem raise_eq (e : ErrorKind) (s : State) :
    raise e s = if e.abandonsEncode then abandonsWith e.code s else refusesWith e.code s := by
  cases h : e.abandonsEncode <;> simp [raise, refusesWith, abandonsWith, h, errWord_eq]

/-- No two error kinds have the same code (R82). -/
theorem code_injective : Function.Injective ErrorKind.code := by
  intro a b h
  cases a <;> cases b <;> first | rfl | (exfalso; revert h; decide)

theorem errorResponse_injective : Function.Injective errorResponse := by
  intro a b h
  revert a b
  decide

/-- Bit 31 tells an error from a success. -/
theorem errorResponse_ne_successResponse (c : BitVec 4) (d : BitVec 24) : errorResponse c ≠ successResponse d := by
  intro h
  have e1 : ∀ c : BitVec 4, (errorResponse c).extractLsb' 31 1 = 1#1 := by decide
  have e2 : (successResponse d).extractLsb' 31 1 = 0#1 := by
    unfold successResponse
    ext k hk
    simp
    intro _
    exact BitVec.getLsbD_of_ge _ _ (by omega)
  have := congrArg (fun x => x.extractLsb' 31 1) h
  simp only [e1, e2] at this
  cases this

/-! ### The input side -/

/-- What taking the next input gives: nothing when nothing is presented, else the first input and the state without it. -/
theorem takeInput_eq (s : State) :
    takeInput s = match s.inputs with
      | [] => none
      | x :: rest => some (x, { s with inputs := rest }) := rfl

theorem takeInput_presentNext (w : CommandWord) (s : State) :
    takeInput (presentNext w s) = some (.command w, s) := rfl

/-! ### The payload buffer -/

/-- The length of PBUF after a write at PLEN. -/
theorem memWrite_length (s : State) (b : List Byte) (h : Memory.wf s) :
    (memWrite s.plen.val b s.pbuf).length = min (plenAfter s.plen b.length).val 255 := by
  have := s.plen.isLt
  unfold Memory.wf at h
  simp [memWrite, pbufSize, plenAfter, h]
  omega

/-- What each index of PBUF reads after a write of `b` at PLEN. -/
theorem memWrite_getElem? (s : State) (b : List Byte) (j : Nat) (h : Memory.wf s) :
    (memWrite s.plen.val b s.pbuf)[j]? =
      if 255 ≤ j then none
      else if j < s.plen.val then s.pbuf[j]?
      else if j < s.plen.val + b.length then b[j - s.plen.val]?
      else s.pbuf[j]? := by
  have := s.plen.isLt
  unfold Memory.wf at h
  unfold memWrite pbufSize
  by_cases h255 : 255 ≤ j
  · simp [h255]
  · simp only [h255, if_false]
    rw [List.getElem?_take_of_lt (by omega), List.append_assoc, List.getElem?_append]
    simp only [List.length_take, h]
    split
    · rw [List.getElem?_take_of_lt (by omega), if_pos (by omega)]
    · rw [List.getElem?_append]
      split
      · rw [if_neg (by omega), if_pos (by omega)]; congr 1; omega
      · rw [if_neg (by omega), if_neg (by omega)]
        simp
        rw [List.getElem?_eq_none (by omega), List.getElem?_eq_none (by omega)]

/-- What reading `n` bytes from the start gives, index by index. -/
theorem memRead_getElem? (n j : Nat) (buf : List Byte) :
    (memRead 0 n buf)[j]? = if j < n then buf[j]? else none := by
  unfold memRead
  split
  · rw [List.getElem?_take_of_lt ‹_›]; simp
  · rw [List.getElem?_eq_none]; simp; omega

/-! ### Every operation keeps PBUF's canonical form -/

theorem reset_wf : Memory.wf State.reset := by decide

theorem respond_wf (r : ResponseWord) (s : State) (h : Memory.wf s) : Memory.wf (respond r s) := h

theorem raise_wf (e : ErrorKind) (s : State) (h : Memory.wf s) : Memory.wf (raise e s) := by
  cases hk : e.abandonsEncode <;> simp_all [Memory.wf]

theorem appendPayload_wf (b : List Byte) (s : State) (h : Memory.wf s) : Memory.wf (appendPayload b s) :=
  memWrite_length s b h

theorem clearPayload_wf (s : State) : Memory.wf (clearPayload s) := by simp [Memory.wf]

theorem emit_wf (f : List Byte) (s : State) (h : Memory.wf s) : Memory.wf (emit f s) := h

theorem hardwareReset_wf (s : State) : Memory.wf (hardwareReset s) := by simp [Memory.wf]

theorem presentNext_wf (w : CommandWord) (s : State) (h : Memory.wf s) : Memory.wf (presentNext w s) := h

theorem newSession_wf (a b : Byte) (s : State) : Memory.wf (newSession a b s) := by simp [Memory.wf]

theorem openEncode_wf (m : CrcMode) (id : MsgId) (s : State) : Memory.wf (openEncode m id s) := by simp [Memory.wf]

theorem buildFrame_wf (s : State) : Memory.wf (buildFrame s) := by simp [Memory.wf]

end Sys2Proof.Machine
end

