-- ==== Sys2Proof/Laws/Exec.lean ====
section
/-! SUPPORT. Inversion: what each meaning, and a step, can answer, with the guard of each case. Later proofs cite these and unfold
no meaning. -/

namespace Sys2Proof.Machine

theorem phase_idle_of_ne {s : State} (h : s.phase ≠ .collect) : s.phase = .idle := by
  cases hp : s.phase <;> simp_all

theorem execBegin_cases (known : Bool) (mode : CrcMode) (msgid : MsgId) (s : State) :
    ((s.configured = false ∨ s.phase = .collect) ∧
      execBegin known mode msgid s = .next (refusesWith ErrorKind.protocolViolation.code s)) ∨
    (s.configured = true ∧ s.phase = .idle ∧ known = false ∧
      execBegin known mode msgid s = .next (refusesWith ErrorKind.unknownMessageId.code s)) ∨
    (s.configured = true ∧ s.phase = .idle ∧ known = true ∧
      execBegin known mode msgid s =
        .next (succeedsWith ((crcExtra s.extraExt msgid).setWidth 24) (openEncode mode msgid s))) := by
  cases hc : s.configured
  · exact .inl ⟨.inl rfl, by simp [execBegin, hc, raise_eq, ErrorKind.abandonsEncode]⟩
  · cases hp : s.phase
    · cases known
      · exact .inr (.inl ⟨rfl, rfl, rfl, by simp [execBegin, hc, hp, raise_eq, ErrorKind.abandonsEncode]⟩)
      · exact .inr (.inr ⟨rfl, rfl, rfl, by simp [execBegin, hc, hp, respond_okWord]⟩)
    · exact .inl ⟨.inr rfl, by simp [execBegin, hp, raise_eq, ErrorKind.abandonsEncode]⟩

theorem execField_cases (wt : BitVec 4) (present empty : Bool) (value : BitVec 65) (s : State) :
    (s.phase = .idle ∧ execField wt present empty value s = .next (refusesWith ErrorKind.protocolViolation.code s)) ∨
    (∃ e, s.phase = .collect ∧ packField wt present empty (valueOf value) = .error e ∧
      execField wt present empty value s = .next (abandonsWith e.code s)) ∨
    ∃ b, s.phase = .collect ∧ packField wt present empty (valueOf value) = .ok b ∧
      execField wt present empty value s =
        .next (succeedsWith (BitVec.ofNat 24 (plenAfter s.plen b.length).val) (appendPayload b s)) := by
  by_cases hp : s.phase = .collect
  · cases hb : packField wt present empty (valueOf value) with
    | error e =>
      exact .inr (.inl ⟨e, hp, rfl, by simp [execField, hp, hb, raise_eq, (packField_error_kind hb).2]⟩)
    | ok b => exact .inr (.inr ⟨b, hp, rfl, by simp [execField, hp, hb, respond_okWord]⟩)
  · exact .inl ⟨phase_idle_of_ne hp, by simp [execField, hp, raise_eq, ErrorKind.abandonsEncode]⟩

theorem execEnd_cases (s : State) :
    (s.phase = .idle ∧ execEnd s = .next (refusesWith ErrorKind.protocolViolation.code s)) ∨
    (s.phase = .collect ∧ 255 < s.plen.val ∧ execEnd s = .next (abandonsWith ErrorKind.payloadTooLarge.code s)) ∨
    (s.phase = .collect ∧ s.plen.val ≤ 255 ∧
      execEnd s = .next (succeedsWith (BitVec.ofNat 24 (13 + s.plen.val)) (buildFrame s))) := by
  by_cases hp : s.phase = .collect
  · by_cases hl : 255 < s.plen.val
    · exact .inr (.inl ⟨hp, hl, by simp [execEnd, hp, hl, maxPayload, raise_eq, ErrorKind.abandonsEncode]⟩)
    · exact .inr (.inr ⟨hp, by omega, by simp [execEnd, hp, hl, maxPayload, frameOverhead, respond_okWord]⟩)
  · exact .inl ⟨phase_idle_of_ne hp, by simp [execEnd, hp, raise_eq, ErrorKind.abandonsEncode]⟩

theorem execRdReg_cases (reg : BitVec 4) (s : State) :
    (8 ≤ reg.toNat ∧ execRdReg reg s = .next (refusesWith ErrorKind.illegalCommand.code s)) ∨
    (reg.toNat < 8 ∧ (reg = 3 ∨ reg = 4) ∧ s.configured = false ∧
      execRdReg reg s = .next (refusesWith ErrorKind.protocolViolation.code s)) ∨
    (reg.toNat < 8 ∧ ¬((reg = 3 ∨ reg = 4) ∧ s.configured = false) ∧
      execRdReg reg s = .next (succeedsWith (readRegister reg s) s)) := by
  by_cases h8 : 8 ≤ reg.toNat
  · exact .inl ⟨h8, by simp [execRdReg, h8, raise_eq, ErrorKind.abandonsEncode]⟩
  · by_cases hc : (reg = 3 ∨ reg = 4) ∧ s.configured = false
    · exact .inr (.inl ⟨by omega, hc.1, hc.2, by
        simp only [execRdReg, h8, hc]; simp [raise_eq, ErrorKind.abandonsEncode]⟩)
    · exact .inr (.inr ⟨by omega, hc, by simp only [execRdReg, h8, hc, if_false, respond_okWord]⟩)

/-- Everything a step can be: waiting, a hardware reset, an executed command, an illegal word. -/
theorem step_cases (s : State) :
    (s.inputs = [] ∧ step s = .next s) ∨
    (∃ rest, s.inputs = .hardwareReset :: rest ∧ step s = .next (hardwareReset { s with inputs := rest })) ∨
    (∃ w rest i, s.inputs = .command w :: rest ∧ decode w = .ok i ∧ step s = exec i { s with inputs := rest }) ∨
    ∃ w rest e, s.inputs = .command w :: rest ∧ decode w = .error e ∧
      step s = .next (refusesWith ErrorKind.illegalCommand.code { s with inputs := rest }) := by
  cases hs : s.inputs with
  | nil => exact .inl ⟨rfl, by simp [step, takeInput, hs]⟩
  | cons x rest =>
    cases x with
    | hardwareReset => exact .inr (.inl ⟨rest, rfl, by simp [step, takeInput, hs]⟩)
    | command w =>
      cases hd : decode w with
      | ok i => exact .inr (.inr (.inl ⟨w, rest, i, rfl, hd, by simp [step, takeInput, hs, hd]⟩))
      | error e =>
        exact .inr (.inr (.inr ⟨w, rest, e, rfl, hd, by
          simp [step, takeInput, hs, hd, illegalWord, raise_eq, ErrorKind.abandonsEncode]⟩))

end Sys2Proof.Machine
end

