-- ==== Sys2Proof/Laws/PerInstr.lean ====
section
/-! SUPPORT. The family EncodeOpcode: the OP field of an instruction's word is the opcode of R71, one lemma per command. -/

namespace Sys2Proof.Laws.EncodeOpcode

/-- The OP column of the opcode map (R71). -/
def opcode : Instr → BitVec 4
  | .init _ _ => 1
  | .beginEncode _ _ _ => 2
  | .field _ _ _ _ => 3
  | .endEncode => 4
  | .crcInit => 5
  | .crcByte _ => 6
  | .rdReg _ => 7

/-- Bits 79:76 of the instruction's word are its opcode. -/
def Statement (i : Instr) : Prop := slice 76 4 (encode i) = opcode i

theorem init (sysid compid : Byte) : Statement (.init sysid compid) := by
  show (0x1#4 ++ 0#60 ++ sysid ++ compid).extractLsb' (8 + (8 + (60 + 0))) 4 = _
  simp only [extract_append_skip, extract_all]
  rfl

theorem beginEncode (known : Bool) (mode : CrcMode) (msgid : MsgId) : Statement (.beginEncode known mode msgid) := by
  show (0x2#4 ++ 0#50 ++ flagBit known ++ mode.bit ++ msgid).extractLsb' (24 + (1 + (1 + (50 + 0)))) 4 = _
  simp only [extract_append_skip, extract_all]
  rfl

theorem field (wt : BitVec 4) (present empty : Bool) (value : BitVec 65) :
    Statement (.field wt present empty value) := by
  show (0x3#4 ++ wt ++ flagBit present ++ flagBit empty ++ 0#5 ++ value).extractLsb' (65 + (5 + (1 + (1 + (4 + 0))))) 4 = _
  simp only [extract_append_skip, extract_all]
  rfl

theorem endEncode : Statement .endEncode := by
  show (0x4#4 ++ 0#76).extractLsb' (76 + 0) 4 = _
  simp only [extract_append_skip, extract_all]
  rfl

theorem crcInit : Statement .crcInit := by
  show (0x5#4 ++ 0#76).extractLsb' (76 + 0) 4 = _
  simp only [extract_append_skip, extract_all]
  rfl

theorem crcByte (b : Byte) : Statement (.crcByte b) := by
  show (0x6#4 ++ 0#68 ++ b).extractLsb' (8 + (68 + 0)) 4 = _
  simp only [extract_append_skip, extract_all]
  rfl

theorem rdReg (reg : BitVec 4) : Statement (.rdReg reg) := by
  show (0x7#4 ++ 0#72 ++ reg).extractLsb' (4 + (72 + 0)) 4 = _
  simp only [extract_append_skip, extract_all]
  rfl

end Sys2Proof.Laws.EncodeOpcode
end

