-- ==== Sys2Proof/Tests/Slice0.lean ====
section
/-! SUPPORT. Tests on fixed words and small states. Expected values come from the spec: the rule or the vector named in each
docstring. The `witness_` theorems show a state and operands that meet the hypotheses of the statement they are named after. -/

namespace Sys2Proof.Tests

open Sys2Proof.Machine

-- one thread: each `decide +kernel` would otherwise start its own
set_option Elab.async false

/-! ### Small states -/

/-- After INIT sysid=1 compid=1. -/
def session : State := { State.reset with sysid := 1, compid := 1, configured := true }

/-- An encode in progress with `n` payload bytes 0x5A packed. -/
def collecting (n : Fin 257) : State :=
  { session with phase := .collect, mode := .seeded, plen := n, pbuf := List.replicate (min n.val 255) 0x5A#8 }

/-- `s` with one command word presented. -/
def given (w : CommandWord) (s : State) : State := { s with inputs := [.command w] }

/-- The outcome is a next state with the property. -/
def ends (o : Host.Outcome State Fault Refusal) (p : State → Bool) : Bool :=
  match o with
  | .next t => p t
  | .fault _ => false
  | .refused _ => false

/-! ### WellFormed: the one check refuses an ill-formed term at both ends of the range, and admits the last good one -/

theorem test_wf_rejects_register_8 : (Instr.rdReg 8).wf = false := by decide
theorem test_wf_rejects_register_15 : (Instr.rdReg 15).wf = false := by decide
theorem test_wf_accepts_register_7 : (Instr.rdReg 7).wf = true := by decide

/-! ### Decode: words written out field by field from the format tables -/

/-- R74: OP 0x1, 60 zero bits, SYSID 0x07, COMPID 0xC8 (the example of R185). -/
theorem test_decode_init : decode 0x100000000000000007C8#80 = .ok (.init 0x07 0xC8) := by decide +kernel
/-- R75: OP 0x2, 50 zero bits, KNOWN 1, MODE 1, MSGID 0x000021 (the example of R171). -/
theorem test_decode_begin : decode 0x20000000000003000021#80 = .ok (.beginEncode true .seeded 33) := by decide +kernel
/-- R75: KNOWN 0, MODE 1, the largest MSGID: bit 24 is MODE, bit 25 is KNOWN. -/
theorem test_decode_begin_unknown :
    decode 0x20000000000001FFFFFF#80 = .ok (.beginEncode false .seeded 0xFFFFFF) := by decide +kernel
/-- R76: OP 0x3, WT 0x3 in 75:72, PRESENT 1 in 71, EMPTY 0, VALUE 0x1234 (the example of R135). -/
theorem test_decode_field : decode 0x33800000000000001234#80 = .ok (.field 3 true false 0x1234) := by decide +kernel
/-- R76: WT 0xA, PRESENT 0, EMPTY 1 in bit 70, bit 64 the sign of VALUE. -/
theorem test_decode_field_sign : decode 0x3A410000000000000000#80 =
    .ok (.field 10 false true 0x10000000000000000) := by decide +kernel
/-- R73: END and CRCINIT. -/
theorem test_decode_end : decode 0x40000000000000000000#80 = .ok .endEncode := by decide +kernel
theorem test_decode_crcinit : decode 0x50000000000000000000#80 = .ok .crcInit := by decide +kernel
/-- R77: OP 0x6, BYTE 0x32. -/
theorem test_decode_crcbyte : decode 0x60000000000000000032#80 = .ok (.crcByte 0x32) := by decide +kernel
/-- R78: OP 0x7, REG 7. -/
theorem test_decode_rdreg : decode 0x70000000000000000007#80 = .ok (.rdReg 7) := by decide +kernel

/-- R86: the all-zero word, opcode 8, and opcode 15 are illegal. -/
theorem test_decode_rejects_opcodes :
    decode 0#80 = .error (.reservedOpcode 0) ∧ decode 0x80000000000000000000#80 = .error (.reservedOpcode 8) ∧
    decode 0xF0000000000000000000#80 = .error (.reservedOpcode 15) := by decide +kernel
/-- R72: the lowest and the highest "zero" bit of formats I, B, F. -/
theorem test_decode_rejects_zero_bits :
    decode 0x10000000000000010000#80 = .error (.nonzeroZeroBits "INIT") ∧
    decode 0x18000000000000000000#80 = .error (.nonzeroZeroBits "INIT") ∧
    decode 0x20000000000004000000#80 = .error (.nonzeroZeroBits "BEGIN") ∧
    decode 0x28000000000000000000#80 = .error (.nonzeroZeroBits "BEGIN") ∧
    decode 0x30020000000000000000#80 = .error (.nonzeroZeroBits "FIELD") ∧
    decode 0x30200000000000000000#80 = .error (.nonzeroZeroBits "FIELD") := by decide +kernel
/-- R72: the same for formats Z, C, R; R78: REG 8. -/
theorem test_decode_rejects_zero_bits_and_register :
    decode 0x40000000000000000001#80 = .error (.nonzeroZeroBits "END") ∧
    decode 0x58000000000000000000#80 = .error (.nonzeroZeroBits "CRCINIT") ∧
    decode 0x60000000000000000100#80 = .error (.nonzeroZeroBits "CRCBYTE") ∧
    decode 0x70000000000000000010#80 = .error (.nonzeroZeroBits "RDREG") ∧
    decode 0x70000000000000000008#80 = .error (.unassignedRegister 8) := by decide +kernel
/-- The table's numbering is the word's own (R70). -/
theorem test_decodeTableWord : decodeTableWord 80 0x33800000000000001234 = some (.field 3 true false 0x1234) := by
  decide +kernel

/-! ### One step of each command -/

/-- R185: INIT during COLLECT abandons the encode and zeroes SEQ; MODE and CRC stay. -/
theorem test_init_in_collect : ends (step (given 0x100000000000000007C8#80 { collecting 3 with seq := 9, lasterr := 14 }))
    (fun t => t.sysid == 7 && t.compid == 200 && t.seq == 0 && t.phase == .idle && t.plen == 0 && t.pbuf == [] &&
      t.lasterr == 0 && t.mode == .seeded && t.crc == 0xFFFF && t.responses == [0x00000000#32]) = true := by decide +kernel
/-- R171: the example, response 104. -/
theorem test_begin : ends (step (given 0x20000000000003000021#80 session))
    (fun t => t.phase == .collect && t.msgid == 33 && t.mode == .seeded && t.plen == 0 &&
      t.responses == [0x00000068#32]) = true := by decide +kernel
/-- R209: BEGIN with KNOWN = 0 before INIT is ProtocolViolation, not UnknownMessageId. -/
theorem test_begin_before_init : ends (step (given 0x20000000000000000000#80 State.reset))
    (fun t => t.lasterr == 14 && t.responses == [0x8E000000#32]) = true := by decide +kernel
/-- R135: the example, int16 0x1234 at PLEN 0. -/
theorem test_field : ends (step (given 0x33800000000000001234#80 (collecting 0)))
    (fun t => t.pbuf == [0x34#8, 0x12#8] && t.plen == 2 && t.responses == [0x00000002#32]) = true := by decide +kernel
/-- R209: FIELD with PRESENT = 0 and WT = 12 in COLLECT is MissingFieldValue. -/
theorem test_field_missing : ends (step (given 0x3C000000000000000000#80 (collecting 3)))
    (fun t => t.lasterr == 3 && t.phase == .idle && t.plen == 0 && t.pbuf == [] &&
      t.responses == [0x83000000#32]) = true := by decide +kernel
/-- R157: the example frame, sysid 1, compid 1, id 0, Seeded, empty payload. -/
theorem test_end : ends (step (given 0x40000000000000000000#80 (collecting 0)))
    (fun t => t.out == [[0xFD#8, 0, 0, 0, 0, 1, 1, 0, 0, 0, 0, 0x0A, 0x64]] && t.seq == 1 && t.crc == 0x640A &&
      t.phase == .idle && t.responses == [0x0000000D#32]) = true := by decide +kernel
/-- R206: END with PLEN = 256. -/
theorem test_end_overlong : ends (exec .endEncode (collecting 256))
    (fun t => t.lasterr == 6 && t.seq == 0 && t.out == [] && t.phase == .idle && t.responses == [0x86000000#32]) = true := by
  decide +kernel
/-- R115: the example. -/
theorem test_crcinit : ends (step (given 0x50000000000000000000#80 { collecting 1 with crc := 0x1234 }))
    (fun t => t.crc == 0xFFFF && t.phase == .collect && t.responses == [0x0000FFFF#32]) = true := by decide +kernel
/-- R116: the example, 0x32 after CRCINIT. -/
theorem test_crcbyte : ends (step (given 0x60000000000000000032#80 State.reset))
    (fun t => t.crc == 0xF7E1 && t.responses == [0x0000F7E1#32]) = true := by decide +kernel
/-- R186: after reset RDREG CRC answers 0xFFFF. -/
theorem test_rdreg_crc : ends (step (given 0x70000000000000000007#80 State.reset))
    (fun t => t.responses == [0x0000FFFF#32] && t.lasterr == 0) = true := by decide +kernel
/-- R186: after reset RDREG SYSID is ProtocolViolation. -/
theorem test_rdreg_sysid_before_init : ends (step (given 0x70000000000000000003#80 State.reset))
    (fun t => t.responses == [0x8E000000#32] && t.lasterr == 14) = true := by decide +kernel

/-! ### Pure functions, at the spec's worked values -/

/-- R111: the example, the nine bytes 0x31 to 0x39. -/
theorem test_crc_bytes :
    crcBytes 0xFFFF#16 [0x31, 0x32, 0x33, 0x34, 0x35, 0x36, 0x37, 0x38, 0x39] = 0x29B1#16 := by decide +kernel
/-- R114: the examples. -/
theorem test_crc_extra : [(0 : MsgId), 74, 2, 49999, 50000, 65535, 16777215].map (crcExtra []) =
    [0x32#8, 0x8E, 0, 0, 147, 0, 0] := by decide +kernel
/-- R132: int8 -128 is [0x80], int8 -129 and 128 raise, int16 -2 is [0xFE, 0xFF]. -/
theorem test_pack_signed : packField 1 true false (-128) = .ok [0x80#8] ∧
    packField 1 true false (-129) = .error .valueOutOfRange ∧ packField 1 true false 128 = .error .valueOutOfRange ∧
    packField 3 true false (-2) = .ok [0xFE#8, 0xFF#8] := ⟨rfl, rfl, rfl, rfl⟩
/-- R152: header10(21, 0, 7, 200, 33). -/
theorem test_header10 : header10 21 0 7 200 33 = [0x15#8, 0, 0, 0, 7, 0xC8, 0x21, 0, 0, 0] := by decide
/-- Log 12: two frames that differ in the sequence byte only, 1 and 2, with an 11-byte payload, have checksums that differ in
ONE byte, so the remark of R240 that both checksum bytes differ does not hold of the algorithm of R110. -/
theorem test_sequence_can_keep_one_checksum_byte :
    (checksum16 [] .plain 0 (header10 11 1 1 1 0) (List.replicate 11 0) ^^^
      checksum16 [] .plain 0 (header10 11 2 1 1 0) (List.replicate 11 0)) &&& 0xFF00#16 = 0 := by decide +kernel

/-! ### Witnesses -/

theorem witness_HardwareResetBetweenCommands :
    ({ collecting 3 with inputs := [.hardwareReset, .command 0] } : State).inputs = .hardwareReset :: [.command 0] := rfl

theorem witness_StepKeepsBlockInvariant :
    (given 0x33800000000000001234#80 (collecting 254)).Inv ∧
    ∃ t, step (given 0x33800000000000001234#80 (collecting 254)) = .next t := ⟨by decide +kernel, _, rfl⟩

/-- A state whose OUT holds the frame of R157, with an END about to emit another. -/
def emitting : State :=
  given 0x40000000000000000000#80
    { collecting 0 with out := [[0xFD#8, 0, 0, 0, 0, 1, 1, 0, 0, 0, 0, 0x0A, 0x64]], seq := 255 }

theorem witness_StepKeepsFramesVerifying :
    emitting.Inv ∧ emitting.FramesVerify ∧ ∃ t, step emitting = .next t := ⟨by decide +kernel, by decide +kernel, _, rfl⟩

theorem witness_StepRunsDecodedCommand :
    (given 0x70000000000000000007#80 session).inputs = .command 0x70000000000000000007#80 :: [] ∧
    decode 0x70000000000000000007#80 = .ok (.rdReg 7) := ⟨rfl, by decide +kernel⟩

theorem witness_WaitingStepChangesNothing : (collecting 3).inputs = [] := rfl

theorem witness_EveryWordGetsOneResponse :
    (given 0#80 session).inputs = .command 0#80 :: [] ∧ (given 0x50000000000000000000#80 session).inputs ≠ [] :=
  ⟨rfl, by decide⟩

theorem witness_SchemaFileMissingNeverAnswered : ∃ t, step (given 0#80 session) = .next t := ⟨_, rfl⟩

theorem witness_DecodeInvertsEncode : (Instr.rdReg 7).wf = true ∧
    (Instr.field 15 true true (BitVec.allOnes 65)).wf = true := by decide

theorem witness_EncodeInvertsDecode :
    decode 0x3F800000000000000000#80 = .ok (.field 15 true false 0) := by decide +kernel

/-- One illegal word for each clause of R86, at the boundaries. -/
theorem witness_IllegalWordsRaiseIllegalCommand :
    illegalByRule 0#80 ∧ illegalByRule 0x80000000000000000000#80 ∧ illegalByRule 0xFFFFFFFFFFFFFFFFFFFF#80 ∧
    illegalByRule 0x30020000000000000000#80 ∧ illegalByRule 0x70000000000000000008#80 ∧
    ¬ illegalByRule 0x70000000000000000007#80 ∧ (given 0#80 session).inputs = .command 0#80 :: [] := by decide +kernel

theorem witness_InitStartsNewSession : ∃ w : CommandWord, (given w session).inputs = .command w :: [] ∧
    w.extractLsb' 76 4 = 1#4 ∧ w.extractLsb' 16 60 ≠ 0#60 := ⟨0x10000000000000010000#80, by decide +kernel⟩

theorem witness_RdRegAnswersRegister :
    ((7#4).toNat < 8 ∧ session.configured = true) ∧ ((2#4).toNat < 8 ∧ (2#4 ≠ 3 ∧ 2#4 ≠ 4)) ∧
    8 ≤ (8#4).toNat ∧ 8 ≤ (15#4).toNat ∧ (((4 : BitVec 4) = 3 ∨ (4 : BitVec 4) = 4) ∧ State.reset.configured = false) ∧
    ∃ w : CommandWord, (given w session).inputs = .command w :: [] ∧ w.extractLsb' 76 4 = 7#4 ∧
      w.extractLsb' 4 72 ≠ 0#72 := ⟨by decide, by decide, by decide, by decide, by decide, 0x70000000000000000010#80, by decide +kernel⟩

theorem witness_BeginOpensEncode :
    (session.configured = true ∧ session.phase = .idle) ∧ State.reset.configured = false ∧ (collecting 3).phase = .collect ∧
    ∃ w : CommandWord, (given w session).inputs = .command w :: [] ∧ w.extractLsb' 76 4 = 2#4 ∧
      w.extractLsb' 26 50 ≠ 0#50 := ⟨by decide, by decide, by decide, 0x20000000000004000000#80, by decide +kernel⟩

/-- A value one beyond each bound of a type, and both ends of the codes that name none. -/
theorem witness_WireTypeMapTable :
    (wireTypeOf 7 = some .int64 ∧ ¬(WireType.int64 = .char ∧ true = true) ∧ (-9223372036854775809 : Int) < wtLo .int64) ∧
    (wireTypeOf 10 = some .char ∧ ¬(WireType.char = .char ∧ false = true) ∧ wtHi .char < (256 : Int)) ∧
    wireTypeOf 11 = none ∧ wireTypeOf 15 = none ∧ (collecting 3).phase = .collect := by decide

/-- The clauses for an unknown code, an empty char, and the four bounds of int8. -/
theorem witness_PackFieldFollowsRule :
    10 < (11#4).toNat ∧ 10 < (15#4).toNat ∧
    (wireTypeOf 1 = some .int8 ∧ ¬((1 : BitVec 4) = 10 ∧ false = true) ∧ (-129 : Int) < wtLo .int8 ∧ wtLo .int8 ≤ -128 ∧
      127 ≤ wtHi .int8 ∧ wtHi .int8 < (128 : Int)) ∧
    (wireTypeOf 10 = some .char ∧ ¬((10 : BitVec 4) = 10 ∧ false = true) ∧ wtLo .char ≤ 255 ∧ 255 ≤ wtHi .char) := by decide

theorem witness_FieldPacksAndAppends :
    (collecting 254).phase = .collect ∧ session.phase = .idle ∧
    ∃ w : CommandWord, (given w (collecting 3)).inputs = .command w :: [] ∧ w.extractLsb' 76 4 = 3#4 ∧
      w.extractLsb' 65 5 ≠ 0#5 := ⟨by decide, by decide, 0x30020000000000000000#80, by decide +kernel⟩

theorem witness_FieldAppendsLittleEndianBytes :
    (collecting 250).phase = .collect ∧ wireTypeOf 7 = some .int64 ∧ ¬(WireType.int64 = .char ∧ false = true) ∧
    wtLo .int64 ≤ (BitVec.ofInt 65 (-9223372036854775808)).toInt ∧
    (BitVec.ofInt 65 (-9223372036854775808)).toInt ≤ wtHi .int64 := by decide +kernel

theorem witness_EmptyCharFieldAppendsA : (collecting 255).phase = .collect := rfl

theorem witness_FieldErrorsInPriorityOrder :
    session.phase = .idle ∧ (collecting 3).phase = .collect ∧ 11 ≤ (11#4).toNat ∧
    (wireTypeOf 0 = some .uint8 ∧ ¬(WireType.uint8 = .char ∧ false = true) ∧ wtHi .uint8 < (256#65).toInt) ∧
    (wireTypeOf 10 = some .char ∧ ¬(WireType.char = .char ∧ false = true) ∧ (BitVec.ofInt 65 (-1)).toInt < wtLo .char) := by
  decide +kernel

/-- A two-byte field at PLEN 254: one byte is stored, one is dropped. -/
theorem witness_FieldWritesOnlyItsBytes :
    (collecting 254).Inv ∧ (collecting 254).phase = .collect ∧ packField 2 true false (valueOf 0x1234) = .ok [0x34#8, 0x12#8] ∧
    254 + 0 ≤ 254 := ⟨by decide +kernel, rfl, rfl, by decide⟩

theorem witness_PackThenUnpackRecoversValue :
    wireTypeOf 1 = some .int8 ∧ wtLo .int8 ≤ (-128 : Int) ∧ (-128 : Int) ≤ wtHi .int8 := by decide

theorem witness_PayloadLengthIsSumOfWidths :
    packFields [⟨0, true, false, 7⟩, ⟨3, true, false, 0x1234⟩] = .ok [0x07#8, 0x34#8, 0x12#8] := rfl

theorem witness_EndEmitsFrame :
    ((collecting 0).phase = .collect ∧ (collecting 0).plen.val ≤ 255) ∧ (collecting 255).plen.val ≤ 255 ∧
    session.phase = .idle ∧ ((collecting 256).phase = .collect ∧ 255 < (collecting 256).plen.val) ∧
    ∃ w : CommandWord, (given w session).inputs = .command w :: [] ∧ w.extractLsb' 76 4 = 4#4 ∧
      w.extractLsb' 0 76 ≠ 0#76 := ⟨by decide, by decide, by decide, by decide, 0x40000000000000000001#80, by decide +kernel⟩

theorem witness_OnlyOverlongPayloadFailsBuild :
    (collecting 256).phase = .collect ∧ (collecting 256).plen.val = 256 ∧ (collecting 255).plen.val ≤ 255 := by decide

theorem witness_EmittedFrameByteMap :
    (collecting 255).Inv ∧ (collecting 255).phase = .collect ∧ (collecting 255).plen.val ≤ 255 := by decide +kernel

theorem witness_FramePortMarksLastByte :
    (collecting 0).Inv ∧ (collecting 0).phase = .collect ∧ (collecting 0).plen.val ≤ 255 := by decide +kernel

theorem witness_EndDoesNotUseOldCrc :
    ((collecting 255).phase = .collect ∧ (collecting 255).plen.val ≤ 255) ∧
    (session.phase = .idle ∧ ∃ t, exec .endEncode session = .next t) ∧
    ((collecting 256).plen.val = 256 ∧ ∃ t, exec .endEncode (collecting 256) = .next t) ∧
    ∃ w : CommandWord, (given w session).inputs = .command w :: [] ∧ w.extractLsb' 76 4 = 4#4 ∧ w.extractLsb' 0 76 ≠ 0#76 :=
  ⟨by decide, ⟨rfl, _, rfl⟩, ⟨rfl, _, rfl⟩, 0x48000000000000000000#80, by decide +kernel⟩

theorem witness_SequenceByteChangesChecksum : (255 : Byte) ≠ 0 := by decide

/-- An admissible extension; one id for each of the four clauses, at their boundaries. -/
theorem witness_CrcExtraTable :
    Config.ExtraExtWf [(2, 9), (49999, 0xFF)] ∧ 50000 ≤ (50000 : MsgId).toNat ∧
    ((49999 : MsgId), (0xFF : Byte)) ∈ ([(2, 9), (49999, 0xFF)] : Config.ExtraExt) ∧
    ((49998 : MsgId).toNat < 50000 ∧ (49998 : MsgId).toNat ∉ [0, 1, 30, 33, 74, 253, 251] ∧
      (49998 : MsgId) ∉ ([(2, 9), (49999, 0xFF)] : Config.ExtraExt).map Prod.fst) := by decide +kernel

theorem witness_CrcInitSetsRegister : ∃ w : CommandWord, (given w session).inputs = .command w :: [] ∧
    w.extractLsb' 76 4 = 5#4 ∧ w.extractLsb' 0 76 ≠ 0#76 := ⟨0x50000000000000000001#80, by decide +kernel⟩

theorem witness_CrcByteAbsorbsByte : ∃ w : CommandWord, (given w session).inputs = .command w :: [] ∧
    w.extractLsb' 76 4 = 6#4 ∧ w.extractLsb' 8 68 ≠ 0#68 := ⟨0x60000000000000000100#80, by decide +kernel⟩

/-- The step of `w` at `s` answers the error `c`: the hypotheses of ErrorResponseTellsWholeEffect. -/
def answersError (w : CommandWord) (s : State) (c : BitVec 4) : Bool :=
  ends (step (given w s)) fun t => t.responses == s.responses ++ [errorResponse c]

/-- A word for each of the seven codes. -/
theorem witness_ErrorResponseTellsWholeEffect :
    answersError 0x20000000000001000000#80 session 2 = true ∧ answersError 0x30000000000000000000#80 (collecting 3) 3 = true ∧
    answersError 0x3B800000000000000000#80 (collecting 3) 4 = true ∧
    answersError 0x30800000000000000100#80 (collecting 3) 5 = true ∧
    answersError 0x40000000000000000000#80 (collecting 256) 6 = true ∧
    answersError 0x70000000000000000004#80 State.reset 14 = true ∧ answersError 0#80 (collecting 3) 15 = true := by decide +kernel

theorem witness_LastErrFollowsResponses :
    (given 0#80 session).inputs = .command 0#80 :: [] ∧ (∃ t, step (given 0#80 session) = .next t) ∧
    ∃ t, step (given 0x50000000000000000000#80 session) = .next t := ⟨rfl, ⟨_, rfl⟩, _, rfl⟩

theorem witness_SeqAdvancesExactlyOnEmission :
    emitting.inputs = .command 0x40000000000000000000#80 :: [] ∧ emitting.seq = 255 ∧ (∃ t, step emitting = .next t) ∧
    ∃ t, step (given 0x40000000000000000000#80 (collecting 256)) = .next t := ⟨rfl, rfl, ⟨_, rfl⟩, _, rfl⟩

/-- A next state for each kind of clause, and a success of CRCBYTE and of FIELD, neither of them an error response. -/
theorem witness_RegistersWrittenOnlyByTheirCommands :
    (∃ t, exec .crcInit (collecting 3) = .next t) ∧ (∃ t, exec .endEncode (collecting 255) = .next t) ∧
    (∃ t, exec (.crcByte 0x32) session = .next t ∧ ∀ c, t.responses ≠ session.responses ++ [errorResponse c]) ∧
    ∃ t, exec (.field 10 true true 0) (collecting 255) = .next t ∧
      ∀ c, t.responses ≠ (collecting 255).responses ++ [errorResponse c] :=
  ⟨⟨_, rfl⟩, ⟨_, rfl⟩, ⟨_, rfl, by decide +kernel⟩, _, rfl, by decide +kernel⟩

theorem witness_CommandsBeforeInit :
    State.reset.Inv ∧ State.reset.configured = false ∧ (Instr.rdReg 7).wf = true ∧ (7#4 ≠ 3 ∧ 7#4 ≠ 4) := by decide +kernel

/-- Two instructions, with an illegal word and a reset presented after them. -/
theorem witness_PresentedWordsRunInOrder :
    (∀ i ∈ [Instr.crcInit, .rdReg 7], i.wf = true) ∧
    ({ session with inputs := presented [.crcInit, .rdReg 7] ++ [.command 0, .hardwareReset] } : State).inputs =
      presented [.crcInit, .rdReg 7] ++ [.command 0, .hardwareReset] := ⟨by decide, rfl⟩

/-- A session with a whole encode presented. -/
def encoding : State :=
  { session with inputs := presented (encodeCommands true .seeded 0 [⟨0, true, false, 7⟩]) ++ [] }

theorem witness_EncodeRunMatchesEncodeFunction :
    encoding.Inv ∧ encoding.configured = true ∧ encoding.phase = .idle ∧
    encoding.inputs = presented (encodeCommands true .seeded 0 [⟨0, true, false, 7⟩]) ++ [] :=
  ⟨by decide +kernel, rfl, rfl, rfl⟩

theorem witness_SessionFramesCarrySuccessiveSequence :
    (∀ x ∈ emitting.inputs, staysInSession x = true) ∧ ∃ t, runSteps 1 emitting = .next t := ⟨by decide +kernel, _, rfl⟩

/-- Before INIT the two states differ in both ids; after it they are equal. -/
theorem witness_UnconfiguredSenderIdsDoNotLeak :
    State.reset.Inv ∧ agreesButUnconfiguredIds State.reset { State.reset with sysid := 5, compid := 6 } ∧
    agreesButUnconfiguredIds session session := by decide +kernel

end Sys2Proof.Tests
end

namespace Sys2Proof.Machine

/-! ### A frame, offset by offset (R55) -/

/-- The frame with its parts nested as they are read: start byte, header, payload, checksum low byte first. -/
theorem frameBytes_eq_cons (header payload : List Byte) (c : Crc16) :
    frameBytes header payload c =
      startByte :: (header ++ (payload ++ [c.extractLsb' 0 8, c.extractLsb' 8 8])) := by
  simp [frameBytes]

/-- The bytes after the start byte are the header's. -/
theorem frameBytes_header_byte (header payload : List Byte) (c : Crc16) {i : Nat} (hi : i < header.length) :
    (frameBytes header payload c)[i + 1]? = header[i]? := by
  rw [frameBytes_eq_cons, List.getElem?_cons_succ, List.getElem?_append_left hi]

/-- The bytes after the header are those of the payload and then of the checksum. -/
theorem frameBytes_tail_byte (header payload : List Byte) (c : Crc16) (k : Nat) :
    (frameBytes header payload c)[header.length + k + 1]? =
      (payload ++ [c.extractLsb' 0 8, c.extractLsb' 8 8])[k]? := by
  rw [frameBytes_eq_cons, List.getElem?_cons_succ, List.getElem?_append_right (by omega),
    Nat.add_sub_cancel_left]

/-! ### The frame END builds (R150 to R157) -/

/-- The payload END reads is all of PLEN's bytes when PBUF has its canonical form (R32) and PLEN is at most 255. -/
theorem endPayload_length {s : State} (hwf : Memory.wf s) (hl : s.plen.val ≤ 255) :
    (endPayload s).length = s.plen.val := by
  have hbuf : s.pbuf.length = min s.plen.val 255 := hwf
  simp [endPayload, memRead, hbuf, hl]

theorem endPayload_getElem? (s : State) {k : Nat} (hk : k < s.plen.val) :
    (endPayload s)[k]? = pbufByte s k := by
  rw [endPayload, memRead_getElem?, if_pos hk, pbufByte]

theorem endFrame_length {s : State} (hwf : Memory.wf s) (hl : s.plen.val ≤ 255) :
    (endFrame s).length = 13 + s.plen.val := by
  rw [endFrame, frameBytes_length, endPayload_length hwf hl, endHeader, header10_length]

/-- Offsets 1 to 10 of the frame are the ten header bytes. -/
theorem endFrame_header_byte (s : State) {i : Nat} (hi : i < 10) :
    (endFrame s)[i + 1]? = (endHeader s)[i]? :=
  frameBytes_header_byte (endHeader s) _ _ hi

/-- From offset 11 on the frame holds the payload and then the checksum. -/
theorem endFrame_tail_byte (s : State) (k : Nat) :
    (endFrame s)[11 + k]? =
      (endPayload s ++ [(endChecksum s).extractLsb' 0 8, (endChecksum s).extractLsb' 8 8])[k]? := by
  rw [show 11 + k = (endHeader s).length + k + 1 by simp [endHeader]; omega]
  exact frameBytes_tail_byte _ _ _ k

theorem endFrame_payload_byte {s : State} (hwf : Memory.wf s) (hl : s.plen.val ≤ 255) {k : Nat}
    (hk : k < s.plen.val) : (endFrame s)[11 + k]? = pbufByte s k := by
  rw [endFrame_tail_byte, List.getElem?_append_left (by rwa [endPayload_length hwf hl]),
    endPayload_getElem? s hk]

/-- The checksum follows the payload, low byte first (R155). -/
theorem endFrame_checksum_byte {s : State} (hwf : Memory.wf s) (hl : s.plen.val ≤ 255) (j : Nat) :
    (endFrame s)[11 + (s.plen.val + j)]? =
      [(endChecksum s).extractLsb' 0 8, (endChecksum s).extractLsb' 8 8][j]? := by
  rw [endFrame_tail_byte, List.getElem?_append_right (by rw [endPayload_length hwf hl]; omega),
    endPayload_length hwf hl, Nat.add_sub_cancel_left]

/-- The state a successful END leaves: the frame built and emitted, and the response with its length (R157). -/
def endState (s : State) : State := succeedsWith (BitVec.ofNat 24 (13 + s.plen.val)) (buildFrame s)

@[simp] theorem endState_out (s : State) : (endState s).out = s.out ++ [endFrame s] := rfl
@[simp] theorem endState_crc (s : State) : (endState s).crc = endChecksum s := rfl

/-- END in COLLECT with a payload that fits succeeds: of the three cases of `execEnd_cases` the guards leave the last. -/
theorem exec_endEncode_of_fits {s : State} (hp : s.phase = .collect) (hl : s.plen.val ≤ 255) :
    exec .endEncode s = .next (endState s) := by
  show execEnd s = _
  rcases execEnd_cases s with ⟨hidle, -⟩ | ⟨-, hlong, -⟩ | ⟨-, -, hnext⟩
  · rw [hp] at hidle; cases hidle
  · omega
  · exact hnext

/-! ### The frame port (R56) -/

/-- The port carries the bytes of a frame, all of them and in order. -/
@[simp] theorem framePortBytes_map_fst (f : List Byte) : (framePortBytes f).map Prod.fst = f := by
  simp [framePortBytes, Function.comp_def, List.zipIdx_map_fst]

/-- LAST is a function of the offset alone: 1 where the offset is that of the final byte. -/
theorem framePortBytes_map_snd (f : List Byte) :
    (framePortBytes f).map Prod.snd = (List.range f.length).map fun i => decide (i + 1 = f.length) := by
  have hidx : f.zipIdx.map Prod.snd = List.range f.length := by
    rw [List.zipIdx_map_snd, List.range_eq_range']
  rw [← hidx, framePortBytes, List.map_map, List.map_map]
  rfl

/-- In a frame of `n + 1` bytes LAST is 0 on the first `n` and 1 on the final one. -/
theorem framePortBytes_last_flags {f : List Byte} {n : Nat} (hn : f.length = n + 1) :
    (framePortBytes f).map Prod.snd = List.replicate n false ++ [true] := by
  have hbefore : ∀ i ∈ List.range n, decide (i + 1 = n + 1) = false := fun i hi => by
    have := List.mem_range.mp hi
    simp; omega
  rw [framePortBytes_map_snd, hn, List.range_succ, List.map_append, List.map_congr_left hbefore]
  simp

/-- A frame appended to OUT leaves on the port whole, behind everything sent before it. -/
theorem framePort_of_out_append {s t : State} {f : List Byte} (h : t.out = s.out ++ [f]) :
    framePort t = framePort s ++ framePortBytes f := by
  simp [framePort, h]

end Sys2Proof.Machine

section
open Sys2Proof Sys2Proof.Machine

/-- Settles O28: the frame is `endFrame`, whose offsets fall into the start byte, the header, the payload and the checksum;
the checksum emitted is the one END leaves in CRC. -/
theorem emittedFrameByteMap : Obligations.EmittedFrameByteMap := by
  intro s hinv hp hl
  obtain ⟨-, -, hwf, -⟩ := hinv
  have header : ∀ i < 10, (endFrame s)[i + 1]? = (endHeader s)[i]? := fun _ hi => endFrame_header_byte s hi
  refine ⟨endState s, endFrame s, exec_endEncode_of_fits hp hl, endState_out s, endFrame_length hwf hl, rfl,
    header 0 (by decide), header 1 (by decide), header 2 (by decide), header 3 (by decide), header 4 (by decide),
    header 5 (by decide), header 6 (by decide), header 7 (by decide), header 8 (by decide), header 9 (by decide),
    fun k hk => endFrame_payload_byte hwf hl hk, endFrame_checksum_byte hwf hl 0, ?_⟩
  rw [show 12 + s.plen.val = 11 + (s.plen.val + 1) by omega]
  exact endFrame_checksum_byte hwf hl 1

/-- Settles O29: OUT grows by one frame, so the port's stream grows by that frame's bytes, and LAST depends only on its
length, `13 + PLEN`. -/
theorem framePortMarksLastByte : Obligations.FramePortMarksLastByte := by
  intro s hinv hp hl
  obtain ⟨-, -, hwf, -⟩ := hinv
  have hlen : (endFrame s).length = (12 + s.plen.val) + 1 := by rw [endFrame_length hwf hl]; omega
  exact ⟨endState s, endFrame s, exec_endEncode_of_fits hp hl, endState_out s, framePortBytes (endFrame s),
    framePort_of_out_append (endState_out s), framePortBytes_map_fst _, framePortBytes_last_flags hlen⟩

end

namespace Sys2Proof.Machine

/-! ### Legal and illegal command words (R86) -/

/-- The word whose bits `lo + len - 1 : lo` are 1 and whose other bits are 0. -/
def fieldMask (lo len : Nat) : CommandWord := (BitVec.allOnes len).setWidth 80 <<< lo

theorem getLsbD_fieldMask (lo len k : Nat) :
    (fieldMask lo len).getLsbD k = decide (k < 80 ∧ lo ≤ k ∧ k - lo < len) := by
  rw [fieldMask, BitVec.getLsbD_shiftLeft, BitVec.getLsbD_setWidth, BitVec.getLsbD_allOnes, Bool.eq_iff_iff]
  simp
  omega

/-- A word meets the mask of a field in no bit exactly when the slice of that field is 0. -/
theorem and_fieldMask_eq_zero_iff (w : CommandWord) (lo len : Nat) :
    w &&& fieldMask lo len = 0#80 ↔ slice lo len w = 0#len := by
  constructor
  · intro h
    refine BitVec.eq_of_getLsbD_eq fun i hi => ?_
    have hbit : w.getLsbD (lo + i) = true → 80 ≤ lo + i := by
      simpa [getLsbD_fieldMask, hi] using congrArg (BitVec.getLsbD · (lo + i)) h
    have hzero : w.getLsbD (lo + i) = false :=
      Bool.eq_false_iff.mpr fun hone => absurd (BitVec.lt_of_getLsbD hone) (Nat.not_lt.mpr (hbit hone))
    simpa [slice, hi] using hzero
  · intro h
    refine BitVec.eq_of_getLsbD_eq fun k _ => ?_
    have hbit : k - lo < len → w.getLsbD (lo + (k - lo)) = false := by
      simpa [slice] using congrArg (BitVec.getLsbD · (k - lo)) h
    by_cases hin : lo ≤ k ∧ k - lo < len
    · rw [Nat.add_sub_cancel' hin.1] at hbit
      simp [hbit hin.2]
    · simp [getLsbD_fieldMask, hin]

/-- R86 for an assigned opcode: the field the format marks "zero" is not 0, or RDREG names an unassigned register. -/
theorem illegalByRule_iff_of_opcode {w : CommandWord} {op lo len : Nat} (hop : (slice 76 4 w).toNat = op)
    (hrange : 1 ≤ op ∧ op ≤ 7) (hmask : zeroMask op = fieldMask lo len) :
    illegalByRule w ↔ slice lo len w ≠ 0#len ∨ (op = 7 ∧ 8 ≤ (slice 0 4 w).toNat) := by
  have hrule : illegalByRule w ↔ op = 0 ∨ 8 ≤ op ∨ w &&& zeroMask op ≠ 0#80 ∨ (op = 7 ∧ 8 ≤ (slice 0 4 w).toNat) := by
    subst hop
    exact Iff.rfl
  have hassigned : op ≠ 0 ∧ ¬ 8 ≤ op := by omega
  rw [hrule, hmask, ne_eq, and_fieldMask_eq_zero_iff]
  simp [hassigned]

/-- A format whose one check is that a field is 0 accepts exactly the legal words of its opcode, when that field is the one
the rule marks "zero". -/
theorem exists_decode_ok_iff_of_zeroField {w : CommandWord} {op lo len : Nat} {instr : Instr} {e : IllegalWord}
    (hop : (slice 76 4 w).toNat = op)
    (hdec : decode w = if slice lo len w = 0#len then .ok instr else .error e)
    (hrange : 1 ≤ op ∧ op < 7 := by decide) (hmask : zeroMask op = fieldMask lo len := by decide) :
    (∃ i, decode w = .ok i) ↔ ¬ illegalByRule w := by
  have hrule := illegalByRule_iff_of_opcode hop ⟨hrange.1, hrange.2.le⟩ hmask
  have hop7 : op ≠ 7 := hrange.2.ne
  rw [hrule, hdec]
  split <;> simp [*]

/-- RDREG checks its register number besides its "zero" field (R78). -/
theorem exists_decode_ok_iff_of_rdReg {w : CommandWord} (hop : (slice 76 4 w).toNat = 7) :
    (∃ i, decode w = .ok i) ↔ ¬ illegalByRule w := by
  have hrule := illegalByRule_iff_of_opcode (lo := 4) (len := 72) hop (by decide) (by decide)
  have hdec : decode w = decodeRdReg w := by simp [decode, hop]
  rw [hrule, hdec, decodeRdReg]
  split
  · split <;> simp [*]
  · simp [*]

/-- A reserved opcode (R71) has no legal word. -/
theorem exists_decode_ok_iff_of_reserved {w : CommandWord}
    (hop : (slice 76 4 w).toNat = 0 ∨ 8 ≤ (slice 76 4 w).toNat) :
    (∃ i, decode w = .ok i) ↔ ¬ illegalByRule w := by
  have hill : illegalByRule w := hop.imp_right .inl
  have hdec : decode w = .error (.reservedOpcode (slice 76 4 w)) := by
    unfold decode
    split
    case h_8 => rfl
    all_goals omega
  simp [hdec, hill]

/-- The words the decoder accepts are those the rule does not list, opcode by opcode. -/
theorem exists_decode_ok_iff (w : CommandWord) : (∃ i, decode w = .ok i) ↔ ¬ illegalByRule w := by
  by_cases hres : (slice 76 4 w).toNat = 0 ∨ 8 ≤ (slice 76 4 w).toNat
  · exact exists_decode_ok_iff_of_reserved hres
  obtain hop | hop | hop | hop | hop | hop | hop :
    (slice 76 4 w).toNat = 1 ∨ (slice 76 4 w).toNat = 2 ∨ (slice 76 4 w).toNat = 3 ∨ (slice 76 4 w).toNat = 4 ∨
      (slice 76 4 w).toNat = 5 ∨ (slice 76 4 w).toNat = 6 ∨ (slice 76 4 w).toNat = 7 := by omega
  · exact exists_decode_ok_iff_of_zeroField (lo := 16) (len := 60) hop (by rw [decode, hop]; rfl)
  · exact exists_decode_ok_iff_of_zeroField (lo := 26) (len := 50) hop (by rw [decode, hop]; rfl)
  · exact exists_decode_ok_iff_of_zeroField (lo := 65) (len := 5) hop (by rw [decode, hop]; rfl)
  · exact exists_decode_ok_iff_of_zeroField (lo := 0) (len := 76) hop (by rw [decode, hop]; rfl)
  · exact exists_decode_ok_iff_of_zeroField (lo := 0) (len := 76) hop (by rw [decode, hop]; rfl)
  · exact exists_decode_ok_iff_of_zeroField (lo := 8) (len := 68) hop (by rw [decode, hop]; rfl)
  · exact exists_decode_ok_iff_of_rdReg hop

/-- A presented word the decoder refuses is answered with IllegalCommand (R208): of the cases of `step_cases` only the
last is left. -/
theorem step_of_not_decodes {s : State} {w : CommandWord} {rest : List HostInput} (hin : s.inputs = .command w :: rest)
    (hw : ¬ ∃ i, decode w = .ok i) : step s = .next (refusesWith 15 { s with inputs := rest }) := by
  rcases step_cases s with ⟨hnil, -⟩ | ⟨_, hreset, -⟩ | ⟨w', _, i, hcmd, hok, -⟩ | ⟨w', _, _, hcmd, -, hstep⟩
  · simp [hin] at hnil
  · simp [hin] at hreset
  · obtain ⟨rfl, rfl⟩ : w = w' ∧ rest = _ := by simpa [hin] using hcmd
    exact absurd ⟨i, hok⟩ hw
  · obtain ⟨rfl, rfl⟩ : w = w' ∧ rest = _ := by simpa [hin] using hcmd
    exact hstep

end Sys2Proof.Machine

section
open Sys2Proof Sys2Proof.Machine

/-- Settles O13: opcode by opcode the decoder's checks are the rule's list, and a refused word takes the illegal branch of a
step. -/
theorem illegalWordsRaiseIllegalCommand : Obligations.IllegalWordsRaiseIllegalCommand :=
  ⟨exists_decode_ok_iff, fun _ w _ hin hill =>
    step_of_not_decodes hin fun hok => (exists_decode_ok_iff w).mp hok hill⟩

end

namespace Sys2Proof.Machine

/-! ### What FIELD raises (R101 to R103, R131, R135) -/

/-- A code of no type (R103): with PRESENT = 1, three of the cases of `packField_cases` need PRESENT = 0 or a type. -/
theorem packField_of_noType {wt : BitVec 4} (ht : wireTypeOf wt = none) (empty : Bool) (v : Int) :
    packField wt true empty v = .error .unsupportedFieldType := by
  rcases packField_cases wt true empty v with ⟨habsent, -⟩ | ⟨-, -, hpack⟩ | ⟨-, hchar, -⟩ | ⟨_, -, htype, -⟩
  · cases habsent
  · exact hpack
  · rw [ht] at hchar; cases hchar
  · rw [ht] at htype; cases htype

/-- A value outside the range of its type (R102), unless the field is an empty char and so has no value. -/
theorem packField_of_outOfRange {wt : BitVec 4} {t : WireType} {empty : Bool} {v : Int} (ht : wireTypeOf wt = some t)
    (hvalue : ¬(t = .char ∧ empty = true)) (hout : v < wtLo t ∨ wtHi t < v) :
    packField wt true empty v = .error .valueOutOfRange := by
  rcases packField_cases wt true empty v with
    ⟨habsent, -⟩ | ⟨-, hnone, -⟩ | ⟨-, hchar, hempty, -⟩ | ⟨t', -, ht', -, hrange⟩
  · cases habsent
  · rw [ht] at hnone; cases hnone
  · rw [ht] at hchar; cases hchar
    exact absurd ⟨rfl, hempty⟩ hvalue
  · obtain rfl : t = t' := Option.some.inj (ht.symm.trans ht')
    rcases hrange with ⟨-, hpack⟩ | ⟨hlo, hhi, -⟩
    · exact hpack
    · omega

/-- In COLLECT an error of `pack_field` is FIELD's error: it abandons the encode and appends nothing (R135, R210). -/
theorem exec_field_of_packField_error {wt : BitVec 4} {present empty : Bool} {value : BitVec 65} {s : State} {e : ErrorKind}
    (hp : s.phase = .collect) (he : packField wt present empty (valueOf value) = .error e) :
    exec (.field wt present empty value) s = .next (abandonsWith e.code s) := by
  show execField wt present empty value s = _
  rcases execField_cases wt present empty value s with ⟨hidle, -⟩ | ⟨e', -, he', hnext⟩ | ⟨b, -, hb, -⟩
  · rw [hp] at hidle; cases hidle
  · obtain rfl : e = e' := Except.error.inj (he.symm.trans he')
    exact hnext
  · rw [he] at hb; cases hb

end Sys2Proof.Machine

section
open Sys2Proof Sys2Proof.Machine

/-- Settles O17: the sixteen rows of the table are read off `wireTypeOf`, `wtWidth`, `wtLo` and `wtHi`; the two errors are those
of `packField`, and FIELD abandons the encode with the second. -/
theorem wireTypeMapTable : Obligations.WireTypeMapTable :=
  ⟨by decide, fun _ _ _ _ ht hvalue hout => packField_of_outOfRange ht hvalue hout,
    fun _ empty value _ ht hp => exec_field_of_packField_error hp (packField_of_noType ht empty (valueOf value))⟩

end

namespace Sys2Proof.Machine

/-! ### The checksum update as the rule's loop (R110) -/

/-- Putting a byte above eight zero bits is widening it and shifting it left 8. -/
theorem append_zero_byte_eq_shiftLeft (b : Byte) : b ++ 0#8 = b.setWidth 16 <<< 8 := by
  refine BitVec.eq_of_getLsbD_eq fun k hk => ?_
  rw [BitVec.getLsbD_append, BitVec.getLsbD_shiftLeft]
  by_cases hlow : k < 8
  · simp [hlow]
  · have hwide : k - 8 < 16 := by omega
    simp [hlow, hk, hwide]

/-- One round of R110, its test written as bit 15 and the polynomial as its value. -/
theorem crcRound_eq (r : Crc16) :
    crcRound r = if r.getLsbD 15 then (r <<< 1) ^^^ 0x1021#16 else r <<< 1 := by
  rw [crcRound, BitVec.msb_eq_getLsbD_last, crcPoly]

theorem crcRounds_eq_iterate (n : Nat) (r : Crc16) : crcRounds n r = crcRound^[n] r := by
  induction n generalizing r with
  | zero => rfl
  | succ n ih => rw [crcRounds, ih, Function.iterate_succ_apply]

theorem crcRounds_injective (n : Nat) : Function.Injective (crcRounds n) := by
  rw [show crcRounds n = crcRound^[n] from funext (crcRounds_eq_iterate n)]
  exact crcRound_injective.iterate n

/-! ### The fold over a byte sequence (R111) and its starting register (R112) -/

@[simp] theorem crcBytes_nil (r : Crc16) : crcBytes r [] = r := rfl

@[simp] theorem crcBytes_cons (r : Crc16) (b : Byte) (t : List Byte) :
    crcBytes r (b :: t) = crcBytes (crcStep r b) t := rfl

theorem crcBytes_append (r : Crc16) (s t : List Byte) : crcBytes r (s ++ t) = crcBytes (crcBytes r s) t := by
  induction s generalizing r with
  | nil => rfl
  | cons b s ih => exact ih (crcStep r b)

/-- For a fixed byte the update loses nothing of the register. -/
theorem crcStep_injective (b : Byte) : Function.Injective fun r => crcStep r b :=
  (crcRounds_injective 8).comp fun _ _ h => (BitVec.xor_left_inj _).mp h

/-- For fixed bytes the checksum loses nothing of the starting register. -/
theorem crcBytes_injective (bytes : List Byte) : Function.Injective fun r => crcBytes r bytes := by
  induction bytes with
  | nil => exact fun _ _ h => h
  | cons b t ih => exact ih.comp (crcStep_injective b)

/-! ### The two modes (R113) -/

/-- No byte takes the start value to itself: eight rounds give 0xFFFF from 0x1E0C alone, and a byte XORed into the high half
leaves 0xFF in the low half. -/
theorem crcStep_crcInitial_ne (b : Byte) : crcStep crcInitial b ≠ crcInitial := by
  intro h
  have hpre : crcInitial ^^^ (b ++ 0#8) = 0x1E0C#16 :=
    crcRounds_injective 8 (h.trans (by decide : crcInitial = crcRounds 8 0x1E0C#16))
  have hlow := congrArg (BitVec.extractLsb' 0 8) hpre
  rw [BitVec.extractLsb'_xor, extract_append_low] at hlow
  exact absurd hlow (by decide)

theorem checksum16_plain (ext : Config.ExtraExt) (id : MsgId) (header payload : List Byte) :
    checksum16 ext .plain id header payload = crcBytes crcInitial (header ++ payload) := rfl

/-- Seeded mode is the checksum of the seed byte and then the frame content. -/
theorem checksum16_seeded (ext : Config.ExtraExt) (id : MsgId) (header payload : List Byte) :
    checksum16 ext .seeded id header payload = crcBytes crcInitial ([crcExtra ext id] ++ header ++ payload) := rfl

/-- The two modes enter the same bytes with two different registers. -/
theorem checksum16_plain_ne_seeded (ext : Config.ExtraExt) (id : MsgId) (header payload : List Byte) :
    checksum16 ext .plain id header payload ≠ checksum16 ext .seeded id header payload := fun h =>
  crcStep_crcInitial_ne (crcExtra ext id) (crcBytes_injective (header ++ payload) h).symm

/-! ### The CRC-extra byte (R114) -/

/-- An id that is not listed is not found among the listed pairs. -/
theorem lookupPair_extraBase_of_unlisted {n : Nat} (hn : n ∉ [0, 1, 30, 33, 74, 253, 251]) :
    lookupPair n extraBase = none := by
  simp only [List.mem_cons, List.not_mem_nil, or_false, not_or] at hn
  simp [lookupPair, extraBase, eq_comm, hn]

/-- The ids that are not listed: the custom range first, then EXTRA_EXT, then 0. -/
theorem crcExtra_of_unlisted (ext : Config.ExtraExt) {id : MsgId} (hid : id.toNat ∉ [0, 1, 30, 33, 74, 253, 251]) :
    crcExtra ext id = if 50000 ≤ id.toNat then id.extractLsb' 0 8 ^^^ id.extractLsb' 8 8
      else (lookupPair id ext).getD 0 := by
  rw [crcExtra, lookupPair_extraBase_of_unlisted hid, customIdMin]

/-- The custom range: every listed id is below it. -/
theorem crcExtra_of_custom (ext : Config.ExtraExt) {id : MsgId} (hid : 50000 ≤ id.toNat) :
    crcExtra ext id = id.extractLsb' 0 8 ^^^ id.extractLsb' 8 8 := by
  have hunlisted : id.toNat ∉ [0, 1, 30, 33, 74, 253, 251] := by
    simp only [List.mem_cons, List.not_mem_nil, or_false]
    omega
  rw [crcExtra_of_unlisted ext hunlisted, if_pos hid]

/-- Below the custom range an unlisted id has the value EXTRA_EXT gives it. -/
theorem crcExtra_of_below (ext : Config.ExtraExt) {id : MsgId} (hlt : id.toNat < 50000)
    (hid : id.toNat ∉ [0, 1, 30, 33, 74, 253, 251]) : crcExtra ext id = (lookupPair id ext).getD 0 := by
  rw [crcExtra_of_unlisted ext hid, if_neg (Nat.not_le.mpr hlt)]

/-- The XOR of the two low bytes of an id, as a number. -/
theorem lowBytes_xor_eq_ofNat (id : MsgId) :
    id.extractLsb' 0 8 ^^^ id.extractLsb' 8 8 =
      BitVec.ofNat 8 ((id.toNat % 256) ^^^ (id.toNat / 256 % 256)) := by
  have hlow : id.extractLsb' 0 8 = BitVec.ofNat 8 (id.toNat % 256) := BitVec.eq_of_toNat_eq (by simp)
  have hhigh : id.extractLsb' 8 8 = BitVec.ofNat 8 (id.toNat / 256 % 256) :=
    BitVec.eq_of_toNat_eq (by simp [Nat.shiftRight_eq_div_pow])
  rw [BitVec.ofNat_xor, hlow, hhigh]

/-- What R8 demands of the keys of EXTRA_EXT: below the custom range, not listed, and no key twice. -/
theorem extraExtWf_iff (ext : Config.ExtraExt) :
    Config.ExtraExtWf ext ↔
      (∀ p ∈ ext, p.1.toNat < 50000 ∧ p.1.toNat ∉ [0, 1, 30, 33, 74, 253, 251]) ∧ (ext.map Prod.fst).Nodup := by
  rw [Config.ExtraExtWf, List.all_eq_true]
  simp only [decide_eq_true_eq]

/-- A key of an admissible EXTRA_EXT has its value there as its CRC-extra byte. -/
theorem crcExtra_of_mem {ext : Config.ExtraExt} (hwf : Config.ExtraExtWf ext) {id : MsgId} {e : Byte}
    (hmem : (id, e) ∈ ext) : crcExtra ext id = e := by
  obtain ⟨hkeys, hnodup⟩ := (extraExtWf_iff ext).mp hwf
  obtain ⟨hlt, hunlisted⟩ := hkeys _ hmem
  rw [crcExtra_of_below ext hlt hunlisted, lookupPair_of_mem hnodup hmem, Option.getD_some]

/-- An id that neither the list, the custom range nor EXTRA_EXT covers has CRC-extra byte 0. -/
theorem crcExtra_of_not_mem {ext : Config.ExtraExt} {id : MsgId} (hlt : id.toNat < 50000)
    (hunlisted : id.toNat ∉ [0, 1, 30, 33, 74, 253, 251]) (hmem : id ∉ ext.map Prod.fst) : crcExtra ext id = 0 := by
  rw [crcExtra_of_below ext hlt hunlisted, lookupPair_of_not_mem hmem, Option.getD_none]

/-! ### Words of an assigned opcode with a "zero" bit set (R86, R208) -/

/-- The rule's list has such a word, so the decoder refuses it. -/
theorem illegalIfSet_of_zeroMask {op : BitVec 4} {lo len : Nat} (hrange : 1 ≤ op.toNat ∧ op.toNat ≤ 7 := by decide)
    (hmask : zeroMask op.toNat = fieldMask lo len := by decide) : illegalIfSet op lo len := by
  intro s w rest hin hop hset
  have hop' : (slice 76 4 w).toNat = op.toNat := congrArg BitVec.toNat hop
  have hill : illegalByRule w := (illegalByRule_iff_of_opcode hop' hrange hmask).mpr (.inl hset)
  exact step_of_not_decodes hin fun hok => (exists_decode_ok_iff w).mp hok hill

/-! ### CRCINIT, CRCBYTE, and the CRC register under END (R115 to R117) -/

theorem exec_crcInit (s : State) :
    exec .crcInit s = .next (succeedsWith 0x00FFFF#24 { s with crc := 0xFFFF#16 }) := by
  show execCrcInit s = _
  rw [execCrcInit, respond_okWord]
  rfl

theorem exec_crcByte (b : Byte) (s : State) :
    exec (.crcByte b) s =
      .next (succeedsWith ((crcStep s.crc b).setWidth 24) { s with crc := crcStep s.crc b }) := by
  show execCrcByte b s = _
  rw [execCrcByte, respond_okWord]

/-- What a successful END leaves takes nothing from the old CRC, and of the old OUT only that the frame stands behind it. -/
theorem endState_of_crc_out (s : State) (c : Crc16) (o : List (List Byte)) :
    endState { s with crc := c, out := o } = { endState s with out := o ++ [endFrame s] } := rfl

/-- END leaves the checksum of the frame it emitted in CRC (R117). -/
theorem frameCrc_endFrame (s : State) : frameCrc (endFrame s) = (endState s).crc := by
  rw [endFrame, frameCrc_frameBytes, endState_crc]

/-- An END outside an encode or with an overlong payload is one of the two errors of `execEnd_cases`, and neither writes CRC. -/
theorem crc_of_failed_end {s t : State} (hfail : s.phase = .idle ∨ s.plen.val = 256)
    (ht : exec .endEncode s = .next t) : t.crc = s.crc := by
  change execEnd s = .next t at ht
  rcases execEnd_cases s with ⟨-, hnext⟩ | ⟨-, -, hnext⟩ | ⟨hcollect, hfits, -⟩
  · cases hnext.symm.trans ht
    rfl
  · cases hnext.symm.trans ht
    rfl
  · rcases hfail with hidle | hlong
    · rw [hcollect] at hidle; cases hidle
    · omega

end Sys2Proof.Machine

section
open Sys2Proof Sys2Proof.Machine

/-- Settles O30: `endState` and `endFrame` are the state and the frame; the checksum is taken from the frame's own bytes, from
the start value, so the old CRC and OUT do not enter it. -/
theorem endDoesNotUseOldCrc : Obligations.EndDoesNotUseOldCrc := by
  refine ⟨fun s hp hl => ⟨endState s, endFrame s, (frameCrc_endFrame s).symm, fun c o => ?_⟩,
    fun _ _ hfail ht => crc_of_failed_end hfail ht, illegalIfSet_of_zeroMask⟩
  rw [exec_endEncode_of_fits (s := { s with crc := c, out := o }) hp hl, endState_of_crc_out]

/-- Settles O35: the seed byte never takes 0xFFFF to itself, and the bytes that follow keep two registers apart. -/
theorem seededAndPlainChecksumsDiffer : Obligations.SeededAndPlainChecksumsDiffer := fun ext id header payload =>
  ⟨checksum16_plain ext id header payload, checksum16_seeded ext id header payload,
    checksum16_plain_ne_seeded ext id header payload, by decide⟩

/-- Settles O37: the listed pairs come first in `crcExtra`, and an admissible EXTRA_EXT meets neither them nor the custom
range. -/
theorem crcExtraTable : Obligations.CrcExtraTable := fun ext hwf =>
  ⟨⟨rfl, rfl, rfl, rfl, rfl, rfl, rfl⟩,
    fun id hid => (crcExtra_of_custom ext hid).trans (lowBytes_xor_eq_ofNat id),
    fun _ _ hmem => crcExtra_of_mem hwf hmem,
    fun _ hlt hunlisted hmem => crcExtra_of_not_mem hlt hunlisted hmem⟩

/-- Settles O31: the rounds are an iterate of `crcRound`, which is the rule's loop body. -/
theorem crcStepIsSpecLoop : Obligations.CrcStepIsSpecLoop := by
  refine ⟨fun r b => ?_, by decide, by decide, by decide, by decide⟩
  rw [crcStep, crcRounds_eq_iterate, append_zero_byte_eq_shiftLeft, funext crcRound_eq]

/-- Settles O32: the two equations define `crcBytes`, and concatenation follows by induction on the first part. -/
theorem crcBytesFoldsCrcStep : Obligations.CrcBytesFoldsCrcStep :=
  ⟨crcBytes_nil, crcBytes_cons, crcBytes_append, crcBytes_nil 0xFFFF#16⟩

/-- Settles O38: CRCINIT has no guard, so one equation covers every state; its format marks bits 75:0 "zero". -/
theorem crcInitSetsRegister : Obligations.CrcInitSetsRegister := ⟨exec_crcInit, illegalIfSet_of_zeroMask⟩

/-- Settles O39: CRCBYTE has no guard either, and starts from the CRC it finds; its format marks bits 75:8 "zero". -/
theorem crcByteAbsorbsByte : Obligations.CrcByteAbsorbsByte := ⟨exec_crcByte, illegalIfSet_of_zeroMask⟩

end

namespace Sys2Proof.Machine

/-! ### The bytes of an in-range value (R131 to R133) -/

theorem natCast_tc (v : Int) (w : Nat) : (tc v w : Int) = v % 2 ^ (8 * w) := by
  rw [tc, Int.toNat_of_nonneg (Int.emod_nonneg _ (by positivity))]
  push_cast
  rfl

/-- Adding a multiple of 256 leaves a byte as it is. -/
theorem ofInt_byte_add_mul (v q : Int) : BitVec.ofInt 8 (v + 256 * q) = BitVec.ofInt 8 v := by
  rw [BitVec.ofInt_add, BitVec.ofInt_mul, show BitVec.ofInt 8 256 = 0#8 by decide, BitVec.zero_mul, BitVec.add_zero]

/-- Reducing modulo `2 ^ (8w)` keeps each byte below the `w`-th: the value loses a multiple of `2 ^ (8k) * 256`. -/
theorem ofInt_byte_emod (v : Int) {w k : Nat} (hk : k < w) :
    BitVec.ofInt 8 (v % 2 ^ (8 * w) / 2 ^ (8 * k)) = BitVec.ofInt 8 (v / 2 ^ (8 * k)) := by
  obtain ⟨d, rfl⟩ : ∃ d, w = k + 1 + d := Nat.exists_eq_add_of_le (Nat.succ_le_of_lt hk)
  have hpow : (2 : Int) ^ (8 * (k + 1 + d)) = 2 ^ (8 * k) * (256 * 2 ^ (8 * d)) := by
    rw [show 8 * (k + 1 + d) = 8 * k + (8 + 8 * d) by ring, pow_add, pow_add]
    norm_num
  have hsplit : v / 2 ^ (8 * k) = v % 2 ^ (8 * (k + 1 + d)) / 2 ^ (8 * k) +
      256 * (2 ^ (8 * d) * (v / 2 ^ (8 * (k + 1 + d)))) := by
    conv_lhs => rw [← Int.emod_add_mul_ediv v (2 ^ (8 * (k + 1 + d)))]
    rw [hpow, mul_assoc, mul_assoc, Int.add_mul_ediv_left _ _ (by positivity)]
  rw [hsplit, ofInt_byte_add_mul]

/-- Byte k of a natural number is byte k of the integer it is. -/
theorem ofNat_byte_eq_ofInt (n k : Nat) : BitVec.ofNat 8 (n / 2 ^ (8 * k)) = BitVec.ofInt 8 ((n : Int) / 2 ^ (8 * k)) := by
  rw [← BitVec.ofInt_natCast]
  push_cast
  rfl

/-- The bytes of the two's-complement pattern are those of the value. -/
theorem le_tc_eq_map (v : Int) (w : Nat) :
    le (tc v w) w = (List.range w).map fun k => BitVec.ofInt 8 (v / 2 ^ (8 * k)) := by
  rw [le_eq_map]
  refine List.map_congr_left fun k hk => ?_
  rw [ofNat_byte_eq_ofInt, natCast_tc, ofInt_byte_emod v (List.mem_range.mp hk)]

theorem le_toNat_eq_map {v : Int} (hv : 0 ≤ v) (w : Nat) :
    le v.toNat w = (List.range w).map fun k => BitVec.ofInt 8 (v / 2 ^ (8 * k)) := by
  rw [le_eq_map]
  refine List.map_congr_left fun k _ => ?_
  rw [ofNat_byte_eq_ofInt, Int.toNat_of_nonneg hv]

/-- The types without a sign start at 0 (R102). -/
theorem wtLo_of_unsigned {t : WireType} (ht : wtSigned t = false) : wtLo t = 0 := by
  revert ht; cases t <;> decide

/-- A signed and an unsigned type give the same bytes: the value's, low byte first. -/
theorem valueBytes_eq_map {t : WireType} {v : Int} (hlo : wtLo t ≤ v) :
    valueBytes t v = (List.range (wtWidth t)).map fun k => BitVec.ofInt 8 (v / 2 ^ (8 * k)) := by
  unfold valueBytes
  cases hsigned : wtSigned t with
  | true => exact le_tc_eq_map v _
  | false => exact le_toNat_eq_map (wtLo_of_unsigned hsigned ▸ hlo) _

/-! ### What `pack_field` accepts (R131, R134) -/

theorem packField_of_absent (wt : BitVec 4) (empty : Bool) (v : Int) :
    packField wt false empty v = .error .missingFieldValue := rfl

/-- An empty char field is the one byte A, whatever its value (R134). -/
theorem packField_of_emptyChar (v : Int) : packField 10 true true v = .ok [emptyCharByte] := rfl

/-- A value in the range of its type (R102) packs to its bytes, unless the field is an empty char. -/
theorem packField_of_inRange {wt : BitVec 4} {t : WireType} {empty : Bool} {v : Int} (ht : wireTypeOf wt = some t)
    (hvalue : ¬(t = .char ∧ empty = true)) (hlo : wtLo t ≤ v) (hhi : v ≤ wtHi t) :
    packField wt true empty v = .ok ((List.range (wtWidth t)).map fun k => BitVec.ofInt 8 (v / 2 ^ (8 * k))) := by
  rcases packField_cases wt true empty v with
    ⟨habsent, -⟩ | ⟨-, hnone, -⟩ | ⟨-, hchar, hempty, -⟩ | ⟨t', -, ht', -, hrange⟩
  · cases habsent
  · rw [ht] at hnone; cases hnone
  · rw [ht] at hchar; cases hchar
    exact absurd ⟨rfl, hempty⟩ hvalue
  · obtain rfl : t = t' := Option.some.inj (ht.symm.trans ht')
    rcases hrange with ⟨hout, -⟩ | ⟨-, -, hpack⟩
    · omega
    · rw [hpack, valueBytes_eq_map hlo]

/-! ### FIELD in COLLECT and in IDLE (R135) -/

/-- In COLLECT the packed bytes are appended and the response carries the new PLEN: of the cases of `execField_cases` only
the last has bytes. -/
theorem exec_field_of_packField_ok {wt : BitVec 4} {present empty : Bool} {value : BitVec 65} {s : State} {b : List Byte}
    (hp : s.phase = .collect) (hb : packField wt present empty (valueOf value) = .ok b) :
    exec (.field wt present empty value) s =
      .next (succeedsWith (BitVec.ofNat 24 (plenAfter s.plen b.length).val) (appendPayload b s)) := by
  show execField wt present empty value s = _
  rcases execField_cases wt present empty value s with ⟨hidle, -⟩ | ⟨e, -, he, -⟩ | ⟨b', -, hb', hnext⟩
  · rw [hp] at hidle; cases hidle
  · rw [hb] at he; cases he
  · obtain rfl : b = b' := Except.ok.inj (hb.symm.trans hb')
    exact hnext

/-- Outside an encode FIELD is refused, whatever its operands. -/
theorem exec_field_of_idle {s : State} (hp : s.phase = .idle) (wt : BitVec 4) (present empty : Bool) (value : BitVec 65) :
    exec (.field wt present empty value) s = .next (refusesWith 14 s) := by
  show execField wt present empty value s = _
  rcases execField_cases wt present empty value s with ⟨-, hnext⟩ | ⟨_, hcollect, -⟩ | ⟨_, hcollect, -⟩
  · exact hnext
  · rw [hp] at hcollect; cases hcollect
  · rw [hp] at hcollect; cases hcollect

end Sys2Proof.Machine

section
open Sys2Proof Sys2Proof.Machine

/-- Settles O18: one lemma per outcome of `packField`; code 10 is char and the codes above it name no type. -/
theorem packFieldFollowsRule : Obligations.PackFieldFollowsRule := by
  intro wt empty v
  refine ⟨packField_of_absent wt empty v, fun hwt => packField_of_noType ((wireTypeOf_eq_none wt).mpr hwt) empty v, ?_,
    fun t ht hvalue => ?_⟩
  · rintro rfl rfl
    exact packField_of_emptyChar v
  · have hvalue' : ¬(t = .char ∧ empty = true) := fun ⟨hchar, hempty⟩ =>
      hvalue ⟨(wireTypeOf_eq_char wt).mp (hchar ▸ ht), hempty⟩
    exact ⟨packField_of_outOfRange ht hvalue', packField_of_inRange ht hvalue'⟩

/-- Settles O19: in COLLECT the outcome of `packField` decides between appending and abandoning; the format of FIELD marks
bits 69:65 "zero". -/
theorem fieldPacksAndAppends : Obligations.FieldPacksAndAppends := by
  refine ⟨fun wt present empty value s hp => ?_, fun wt present empty value s hp => exec_field_of_idle hp wt present empty value,
    illegalIfSet_of_zeroMask⟩
  cases hpack : packField wt present empty value.toInt with
  | error e => exact exec_field_of_packField_error hp hpack
  | ok b => exact exec_field_of_packField_ok hp hpack

end

namespace Sys2Proof.Machine

/-! ### What END answers, and what it leaves of SEQ and OUT (R150 to R157) -/

theorem exec_endEncode_of_idle {s : State} (hp : s.phase = .idle) :
    exec .endEncode s = .next (refusesWith 14 s) := by
  show execEnd s = _
  rcases execEnd_cases s with ⟨-, hnext⟩ | ⟨hcollect, -⟩ | ⟨hcollect, -⟩
  · exact hnext
  · rw [hp] at hcollect; cases hcollect
  · rw [hp] at hcollect; cases hcollect

/-- In COLLECT a payload that does not fit abandons the encode (R151). -/
theorem exec_endEncode_of_overlong {s : State} (hp : s.phase = .collect) (hl : 255 < s.plen.val) :
    exec .endEncode s = .next (abandonsWith 6 s) := by
  show execEnd s = _
  rcases execEnd_cases s with ⟨hidle, -⟩ | ⟨-, -, hnext⟩ | ⟨-, hfits, -⟩
  · rw [hp] at hidle; cases hidle
  · exact hnext
  · omega

/-- Both modes run one fold: Seeded mode has the seed byte in front of the header, Plain mode nothing (R113). -/
theorem checksum16_eq_crcBytes (ext : Config.ExtraExt) (mode : CrcMode) (id : MsgId) (header payload : List Byte) :
    checksum16 ext mode id header payload =
      crcBytes crcInitial ((if mode = .seeded then [crcExtra ext id] else []) ++ header ++ payload) := by
  cases mode with
  | plain => exact checksum16_plain ext id header payload
  | seeded => exact checksum16_seeded ext id header payload

/-- The fields a successful END writes (R157); the others keep their values. -/
theorem endState_eq (s : State) :
    endState s = succeedsWith (BitVec.ofNat 24 (13 + s.plen.val)) { s with
      seq := s.seq + 1, crc := endChecksum s, pbuf := [], plen := 0, phase := .idle
      out := s.out ++ [endFrame s] } := rfl

@[simp] theorem endState_seq (s : State) : (endState s).seq = s.seq + 1 := rfl

/-- The sequence byte stands at offset 4, as it was before the advance (R153). -/
theorem endFrame_seq_byte (s : State) : (endFrame s)[4]? = some s.seq :=
  endFrame_header_byte s (i := 3) (by decide)

/-- A success response is no error response. -/
theorem succeedsWith_responses_ne (d : BitVec 24) (s : State) (c : BitVec 4) :
    (succeedsWith d s).responses ≠ s.responses ++ [errorResponse c] := fun h =>
  errorResponse_ne_successResponse c d (List.singleton_inj.mp (List.append_cancel_left h)).symm

/-! ### Who writes SEQ and OUT (R153, R212) -/

/-- END either emits its frame, advances SEQ and succeeds, or leaves SEQ and OUT and answers an error. -/
theorem seq_out_of_endEncode {s t : State} (ht : exec .endEncode s = .next t) :
    (t.seq = s.seq + 1 ∧ (∃ f, t.out = s.out ++ [f] ∧ f[4]? = some s.seq) ∧
      ∀ c, t.responses ≠ s.responses ++ [errorResponse c]) ∨
    (t.seq = s.seq ∧ t.out = s.out ∧ ∃ c, t.responses = s.responses ++ [errorResponse c]) := by
  change execEnd s = .next t at ht
  rcases execEnd_cases s with ⟨-, hnext⟩ | ⟨-, -, hnext⟩ | ⟨-, -, hnext⟩
  · cases hnext.symm.trans ht
    exact .inr ⟨rfl, rfl, _, rfl⟩
  · cases hnext.symm.trans ht
    exact .inr ⟨rfl, rfl, _, rfl⟩
  · cases hnext.symm.trans ht
    exact .inl ⟨rfl, ⟨endFrame s, rfl, endFrame_seq_byte s⟩, succeedsWith_responses_ne _ (buildFrame s)⟩

theorem exec_init (sysid compid : Byte) (s : State) :
    exec (.init sysid compid) s = .next (succeedsWith 0 (newSession sysid compid s)) := by
  show execInit sysid compid s = _
  rw [execInit, respond_okWord]

/-- Of the seven commands only INIT and END write SEQ, and only END writes OUT. -/
theorem seq_out_unchanged_of_ne_init_ne_end {i : Instr} {s t : State} (hinit : ∀ a b, i ≠ .init a b) (hend : i ≠ .endEncode)
    (ht : exec i s = .next t) : t.seq = s.seq ∧ t.out = s.out := by
  cases i with
  | init a b => exact absurd rfl (hinit a b)
  | beginEncode known mode msgid =>
    change execBegin known mode msgid s = .next t at ht
    rcases execBegin_cases known mode msgid s with ⟨-, hnext⟩ | ⟨-, -, -, hnext⟩ | ⟨-, -, -, hnext⟩ <;>
      cases hnext.symm.trans ht <;> exact ⟨rfl, rfl⟩
  | field wt present empty value =>
    change execField wt present empty value s = .next t at ht
    rcases execField_cases wt present empty value s with ⟨-, hnext⟩ | ⟨_, -, -, hnext⟩ | ⟨_, -, -, hnext⟩ <;>
      cases hnext.symm.trans ht <;> exact ⟨rfl, rfl⟩
  | endEncode => exact absurd rfl hend
  | crcInit => cases (exec_crcInit s).symm.trans ht; exact ⟨rfl, rfl⟩
  | crcByte b => cases (exec_crcByte b s).symm.trans ht; exact ⟨rfl, rfl⟩
  | rdReg reg =>
    change execRdReg reg s = .next t at ht
    rcases execRdReg_cases reg s with ⟨-, hnext⟩ | ⟨-, -, -, hnext⟩ | ⟨-, -, hnext⟩ <;>
      cases hnext.symm.trans ht <;> exact ⟨rfl, rfl⟩

/-- A presented word that decodes is executed on the state with the word taken: of the cases of `step_cases` only the third
is left. -/
theorem step_of_decodes {s : State} {w : CommandWord} {rest : List HostInput} {i : Instr}
    (hin : s.inputs = .command w :: rest) (hw : decode w = .ok i) : step s = exec i { s with inputs := rest } := by
  rcases step_cases s with ⟨hnil, -⟩ | ⟨_, hreset, -⟩ | ⟨w', _, i', hcmd, hok, hstep⟩ | ⟨w', _, _, hcmd, herr, -⟩
  · simp [hin] at hnil
  · simp [hin] at hreset
  · obtain ⟨rfl, rfl⟩ : w = w' ∧ rest = _ := by simpa [hin] using hcmd
    obtain rfl : i = i' := Except.ok.inj (hw.symm.trans hok)
    exact hstep
  · obtain ⟨rfl, rfl⟩ : w = w' ∧ rest = _ := by simpa [hin] using hcmd
    rw [hw] at herr; cases herr

end Sys2Proof.Machine

section
open Sys2Proof Sys2Proof.Machine

/-- Settles O43: a word is refused by the decoder, or it is END, which advances SEQ exactly when it emits, or INIT, or one of
the five commands that write neither SEQ nor OUT. -/
theorem seqAdvancesExactlyOnEmission : Obligations.SeqAdvancesExactlyOnEmission := by
  intro s t w rest hin ht
  cases hw : decode w with
  | error e =>
    rw [step_of_not_decodes hin (by simp [hw])] at ht
    cases ht
    exact .inr (.inr ⟨nofun, rfl, rfl, nofun⟩)
  | ok i =>
    rw [step_of_decodes hin hw] at ht
    by_cases hend : i = .endEncode
    · subst hend
      rcases seq_out_of_endEncode ht with hemits | ⟨hseq, hout, herr⟩
      · exact .inl ⟨rfl, hemits⟩
      · exact .inr (.inr ⟨nofun, hseq, hout, fun _ => herr⟩)
    by_cases hinit : ∃ a b, i = .init a b
    · obtain ⟨a, b, rfl⟩ := hinit
      cases (exec_init a b _).symm.trans ht
      exact .inr (.inl ⟨⟨a, b, rfl⟩, rfl, rfl⟩)
    · have hnoInit : ∀ a b, i ≠ .init a b := fun a b h => hinit ⟨a, b, h⟩
      obtain ⟨hseq, hout⟩ := seq_out_unchanged_of_ne_init_ne_end hnoInit hend ht
      exact .inr (.inr ⟨fun a b h => hnoInit a b (Except.ok.inj h), hseq, hout,
        fun h => absurd (Except.ok.inj h) hend⟩)

/-- Settles O26: on success END leaves `endState`, whose checksum is one fold over seed, header and payload; the guards of END
give the two errors, and its format marks bits 75:0 "zero". -/
theorem endEmitsFrame : Obligations.EndEmitsFrame := by
  refine ⟨fun s hp hl => ?_, fun _ hp => exec_endEncode_of_idle hp, fun _ hp hl => exec_endEncode_of_overlong hp hl,
    illegalIfSet_of_zeroMask⟩
  intro header payload seed c
  have hchecksum : endChecksum s = c := checksum16_eq_crcBytes s.extraExt s.mode s.msgid header payload
  have hframe : endFrame s = 0xFD#8 :: (header ++ payload ++ [c.extractLsb' 0 8, c.extractLsb' 8 8]) := by
    rw [endFrame, hchecksum, frameBytes_eq_cons, List.append_assoc]
    rfl
  rw [exec_endEncode_of_fits hp hl, endState_eq, hchecksum, hframe]

/-- Settles O27: an overlong payload abandons the encode, which writes neither SEQ nor OUT; every other one is built. -/
theorem onlyOverlongPayloadFailsBuild : Obligations.OnlyOverlongPayloadFailsBuild := by
  intro s hp
  by_cases hl : s.plen.val ≤ 255
  · exact ⟨endState s, exec_endEncode_of_fits hp hl, fun hlong => absurd hlong (by omega),
      fun _ => ⟨endState_seq s, endFrame s, endState_out s⟩⟩
  · have hcode : errorResponse 6 = 0x86000000#32 := by decide
    exact ⟨abandonsWith 6 s, exec_endEncode_of_overlong hp (by omega),
      fun _ => ⟨by rw [abandonsWith, hcode], rfl, rfl⟩, fun hfits => absurd hfits hl⟩

end

namespace Sys2Proof.Machine

/-! ### What BEGIN answers (R171) -/

/-- The first case of `execBegin_cases` and the other two exclude each other. -/
theorem not_unready_of_configured_idle {s : State} (hc : s.configured = true) (hp : s.phase = .idle) :
    ¬(s.configured = false ∨ s.phase = .collect) := by
  rw [hc, hp]
  decide

/-- Before an INIT, or within an encode, BEGIN is refused whatever its operands. -/
theorem exec_beginEncode_of_unready {s : State} (h : s.configured = false ∨ s.phase = .collect) (known : Bool)
    (mode : CrcMode) (msgid : MsgId) : exec (.beginEncode known mode msgid) s = .next (refusesWith 14 s) := by
  show execBegin known mode msgid s = _
  rcases execBegin_cases known mode msgid s with ⟨-, hnext⟩ | ⟨hc, hp, -⟩ | ⟨hc, hp, -⟩
  · exact hnext
  · exact absurd h (not_unready_of_configured_idle hc hp)
  · exact absurd h (not_unready_of_configured_idle hc hp)

/-- An id the host did not find is refused only where BEGIN is allowed at all. -/
theorem exec_beginEncode_of_unknown {s : State} (hc : s.configured = true) (hp : s.phase = .idle) (mode : CrcMode)
    (msgid : MsgId) : exec (.beginEncode false mode msgid) s = .next (refusesWith 2 s) := by
  show execBegin false mode msgid s = _
  rcases execBegin_cases false mode msgid s with ⟨hunready, -⟩ | ⟨-, -, -, hnext⟩ | ⟨-, -, hknown, -⟩
  · exact absurd hunready (not_unready_of_configured_idle hc hp)
  · exact hnext
  · cases hknown

/-- A found id opens the encode, and the response carries its seed byte. -/
theorem exec_beginEncode_of_known {s : State} (hc : s.configured = true) (hp : s.phase = .idle) (mode : CrcMode)
    (msgid : MsgId) : exec (.beginEncode true mode msgid) s =
      .next (succeedsWith ((crcExtra s.extraExt msgid).setWidth 24) (openEncode mode msgid s)) := by
  show execBegin true mode msgid s = _
  rcases execBegin_cases true mode msgid s with ⟨hunready, -⟩ | ⟨-, -, hunknown, -⟩ | ⟨-, -, -, hnext⟩
  · exact absurd hunready (not_unready_of_configured_idle hc hp)
  · cases hunknown
  · exact hnext

/-- The fields an accepted BEGIN writes; SEQ, CRC, SYSID, COMPID, OUT and the rest keep their values. -/
theorem openEncode_eq (mode : CrcMode) (msgid : MsgId) (s : State) :
    openEncode mode msgid s = { s with
      msgid := msgid, mode := mode, pbuf := [], plen := 0, lasterr := 0, phase := .collect } := rfl

end Sys2Proof.Machine

section
open Sys2Proof Sys2Proof.Machine

/-- Settles O16: one lemma per outcome of BEGIN; its format marks bits 75:26 "zero". -/
theorem beginOpensEncode : Obligations.BeginOpensEncode := by
  refine ⟨fun mode msgid s hc hp => ?_, fun known mode msgid _ h => exec_beginEncode_of_unready h known mode msgid,
    fun mode msgid _ hc hp => exec_beginEncode_of_unknown hc hp mode msgid, illegalIfSet_of_zeroMask⟩
  rw [exec_beginEncode_of_known hc hp, openEncode_eq]

end

namespace Sys2Proof.Machine

/-! ### What INIT answers (R185) -/

/-- The fields a new session writes; CRC, MSGID, MODE, OUT and the rest keep their values. -/
theorem newSession_eq (sysid compid : Byte) (s : State) :
    newSession sysid compid s = { s with
      sysid := sysid, compid := compid, seq := 0, configured := true, pbuf := [], plen := 0, phase := .idle, lasterr := 0 } :=
  rfl

/-! ### The host-readable registers (R33) -/

/-- Appending one bit at the low end doubles the number and adds the bit. -/
theorem toNat_append_bit {n : Nat} (x : BitVec n) (b : BitVec 1) : (x ++ b).toNat = 2 * x.toNat + b.toNat := by
  rw [BitVec.toNat_append, ← Nat.shiftLeft_add_eq_or_of_lt b.isLt, Nat.shiftLeft_eq]
  omega

theorem phase_bit_toNat (p : Phase) : p.bit.toNat = if p = .collect then 1 else 0 := by
  cases p <;> rfl

theorem crcMode_bit_toNat (m : CrcMode) : m.bit.toNat = if m = .seeded then 1 else 0 := by
  cases m <;> rfl

/-- STATUS as a number: LASTERR shifted up by the four one-bit fields below it, bit 3 of which is 0. -/
theorem statusByte_toNat (s : State) : (statusByte s).toNat =
    (if s.phase = .collect then 1 else 0) + 2 * (if s.configured then 1 else 0) +
      4 * (if s.mode = .seeded then 1 else 0) + 16 * s.lasterr.toNat := by
  have hbits : (statusByte s).toNat =
      2 * (2 * (2 * (2 * s.lasterr.toNat + 0) + s.mode.bit.toNat) + (BitVec.ofBool s.configured).toNat) +
        s.phase.bit.toNat := by
    simp only [statusByte, toNat_append_bit, BitVec.toNat_zero]
  rw [hbits, phase_bit_toNat, crcMode_bit_toNat, BitVec.toNat_ofBool, Bool.toNat, Bool.cond_eq_ite]
  omega

theorem readRegister_status (s : State) : readRegister 0 s = BitVec.ofNat 24 (statusByte s).toNat :=
  (BitVec.ofNat_toNat 24 (statusByte s)).symm

theorem readRegister_lasterr (s : State) : readRegister 1 s = BitVec.ofNat 24 s.lasterr.toNat :=
  (BitVec.ofNat_toNat 24 s.lasterr).symm

theorem readRegister_seq (s : State) : readRegister 2 s = BitVec.ofNat 24 s.seq.toNat :=
  (BitVec.ofNat_toNat 24 s.seq).symm

theorem readRegister_sysid (s : State) : readRegister 3 s = BitVec.ofNat 24 s.sysid.toNat :=
  (BitVec.ofNat_toNat 24 s.sysid).symm

theorem readRegister_compid (s : State) : readRegister 4 s = BitVec.ofNat 24 s.compid.toNat :=
  (BitVec.ofNat_toNat 24 s.compid).symm

theorem readRegister_msgid (s : State) : readRegister 5 s = BitVec.ofNat 24 s.msgid.toNat :=
  ((BitVec.ofNat_toNat 24 s.msgid).trans (BitVec.setWidth_eq s.msgid)).symm

theorem readRegister_plen (s : State) : readRegister 6 s = BitVec.ofNat 24 s.plen.val := rfl

theorem readRegister_crc (s : State) : readRegister 7 s = BitVec.ofNat 24 s.crc.toNat :=
  (BitVec.ofNat_toNat 24 s.crc).symm

theorem assigned_register_cases {reg : BitVec 4} (hreg : reg.toNat < 8) :
    reg = 0 ∨ reg = 1 ∨ reg = 2 ∨ reg = 3 ∨ reg = 4 ∨ reg = 5 ∨ reg = 6 ∨ reg = 7 := by
  revert reg
  decide

/-! ### What RDREG answers (R186) -/

theorem exec_rdReg_of_unassigned {reg : BitVec 4} (hreg : 8 ≤ reg.toNat) (s : State) :
    exec (.rdReg reg) s = .next (refusesWith 15 s) := by
  show execRdReg reg s = _
  rcases execRdReg_cases reg s with ⟨-, hnext⟩ | ⟨hassigned, -⟩ | ⟨hassigned, -⟩
  · exact hnext
  · omega
  · omega

/-- The sender ids have no value to show before an INIT. -/
theorem exec_rdReg_of_senderId_unconfigured {reg : BitVec 4} {s : State} (hreg : reg = 3 ∨ reg = 4)
    (hc : s.configured = false) : exec (.rdReg reg) s = .next (refusesWith 14 s) := by
  show execRdReg reg s = _
  rcases execRdReg_cases reg s with ⟨hunassigned, -⟩ | ⟨-, -, -, hnext⟩ | ⟨-, hreadable, -⟩
  · rcases hreg with rfl | rfl <;> exact absurd hunassigned (by decide)
  · exact hnext
  · exact absurd ⟨hreg, hc⟩ hreadable

/-- The two refusals apart, the register's value is the response and the state is otherwise the same. -/
theorem exec_rdReg_of_readable {reg : BitVec 4} {s : State} (hreg : reg.toNat < 8)
    (hreadable : s.configured = true ∨ (reg ≠ 3 ∧ reg ≠ 4)) :
    exec (.rdReg reg) s = .next (succeedsWith (readRegister reg s) s) := by
  show execRdReg reg s = _
  rcases execRdReg_cases reg s with ⟨hunassigned, -⟩ | ⟨-, hsender, hc, -⟩ | ⟨-, -, hnext⟩
  · omega
  · rcases hreadable with hconfigured | ⟨hne3, hne4⟩
    · rw [hc] at hconfigured; cases hconfigured
    · exact absurd hsender (not_or.mpr ⟨hne3, hne4⟩)
  · exact hnext

end Sys2Proof.Machine

section
open Sys2Proof Sys2Proof.Machine

/-- Settles O15: one lemma per outcome of RDREG, and one equation per register of the map of R33; its format marks bits 75:4
"zero". -/
theorem rdRegAnswersRegister : Obligations.RdRegAnswersRegister := by
  refine ⟨fun reg s hreg hreadable => ?_, fun _ s hreg => exec_rdReg_of_unassigned hreg s,
    fun _ _ hreg hc => exec_rdReg_of_senderId_unconfigured hreg hc, illegalIfSet_of_zeroMask⟩
  rw [exec_rdReg_of_readable hreg hreadable, ← statusByte_toNat]
  congr 2
  rcases assigned_register_cases hreg with rfl | rfl | rfl | rfl | rfl | rfl | rfl | rfl
  exacts [readRegister_status s, readRegister_lasterr s, readRegister_seq s, readRegister_sysid s, readRegister_compid s,
    readRegister_msgid s, readRegister_plen s, readRegister_crc s]

/-- Settles O14: INIT has no guard, so one equation covers every state; its format marks bits 75:16 "zero". -/
theorem initStartsNewSession : Obligations.InitStartsNewSession := by
  refine ⟨fun sysid compid s => ?_, illegalIfSet_of_zeroMask⟩
  rw [exec_init, newSession_eq]

end

section
open Sys2Proof Sys2Proof.Machine

/-- Settles O22: IDLE is refused before the operands are looked at; in COLLECT each check of `packField` that fails is FIELD's
error, a code from 11 up naming no type. -/
theorem fieldErrorsInPriorityOrder : Obligations.FieldErrorsInPriorityOrder := by
  intro wt present empty value s
  refine ⟨fun hp => exec_field_of_idle hp wt present empty value, ?missing, ?noType, ?outOfRange⟩
  case missing =>
    rintro hp rfl
    exact exec_field_of_packField_error hp (packField_of_absent wt empty _)
  case noType =>
    rintro hp rfl hwt
    exact exec_field_of_packField_error hp (packField_of_noType ((wireTypeOf_eq_none wt).mpr hwt) empty _)
  case outOfRange =>
    rintro hp rfl t ht hvalue hout
    exact exec_field_of_packField_error hp (packField_of_outOfRange ht hvalue hout)

end

namespace Sys2Proof.Machine

/-! ### What an error response tells of an executed command (R200, R210, R211)

Each lemma names the errors of one command by code, with the state each leaves. -/

/-- The last response tells the code of the error. -/
theorem code_eq_of_responses_eq {rs : List ResponseWord} {c c' : BitVec 4}
    (h : rs ++ [errorResponse c] = rs ++ [errorResponse c']) : c = c' :=
  errorResponse_injective (List.singleton_inj.mp (List.append_cancel_left h))

section
variable {s t : State} {c : BitVec 4}

theorem error_of_beginEncode {known : Bool} {mode : CrcMode} {msgid : MsgId}
    (ht : exec (.beginEncode known mode msgid) s = .next t) (herr : t.responses = s.responses ++ [errorResponse c]) :
    (c = 2 ∧ known = false ∧ t = refusesWith c s) ∨ (c = 14 ∧ t = refusesWith c s) := by
  change execBegin known mode msgid s = .next t at ht
  rcases execBegin_cases known mode msgid s with ⟨-, hnext⟩ | ⟨-, -, hunknown, hnext⟩ | ⟨-, -, -, hnext⟩
  · cases hnext.symm.trans ht
    obtain rfl := code_eq_of_responses_eq herr
    exact .inr ⟨rfl, rfl⟩
  · cases hnext.symm.trans ht
    obtain rfl := code_eq_of_responses_eq herr
    exact .inl ⟨rfl, hunknown, rfl⟩
  · cases hnext.symm.trans ht
    exact absurd herr (succeedsWith_responses_ne _ (openEncode mode msgid s) c)

theorem error_of_field {wt : BitVec 4} {present empty : Bool} {value : BitVec 65}
    (ht : exec (.field wt present empty value) s = .next t) (herr : t.responses = s.responses ++ [errorResponse c]) :
    (c.toNat ∈ [3, 4, 5] ∧ t = abandonsWith c s) ∨ (c = 14 ∧ t = refusesWith c s) := by
  change execField wt present empty value s = .next t at ht
  rcases execField_cases wt present empty value s with ⟨-, hnext⟩ | ⟨e, -, hpack, hnext⟩ | ⟨b, -, -, hnext⟩
  · cases hnext.symm.trans ht
    obtain rfl := code_eq_of_responses_eq herr
    exact .inr ⟨rfl, rfl⟩
  · cases hnext.symm.trans ht
    obtain rfl := code_eq_of_responses_eq herr
    have hcode : e.code.toNat ∈ [3, 4, 5] := by
      obtain ⟨rfl | rfl | rfl, -⟩ := packField_error_kind hpack <;> decide
    exact .inl ⟨hcode, rfl⟩
  · cases hnext.symm.trans ht
    exact absurd herr (succeedsWith_responses_ne _ (appendPayload b s) c)

theorem error_of_endEncode (ht : exec .endEncode s = .next t) (herr : t.responses = s.responses ++ [errorResponse c]) :
    (c = 6 ∧ t = abandonsWith c s) ∨ (c = 14 ∧ t = refusesWith c s) := by
  change execEnd s = .next t at ht
  rcases execEnd_cases s with ⟨-, hnext⟩ | ⟨-, -, hnext⟩ | ⟨-, -, hnext⟩
  · cases hnext.symm.trans ht
    obtain rfl := code_eq_of_responses_eq herr
    exact .inr ⟨rfl, rfl⟩
  · cases hnext.symm.trans ht
    obtain rfl := code_eq_of_responses_eq herr
    exact .inl ⟨rfl, rfl⟩
  · cases hnext.symm.trans ht
    exact absurd herr (succeedsWith_responses_ne _ (buildFrame s) c)

/-- An assigned register is refused only where it is a sender id. -/
theorem error_of_rdReg {reg : BitVec 4} (hreg : reg.toNat < 8) (ht : exec (.rdReg reg) s = .next t)
    (herr : t.responses = s.responses ++ [errorResponse c]) :
    c = 14 ∧ (reg = 3 ∨ reg = 4) ∧ t = refusesWith c s := by
  change execRdReg reg s = .next t at ht
  rcases execRdReg_cases reg s with ⟨hunassigned, -⟩ | ⟨-, hsender, -, hnext⟩ | ⟨-, -, hnext⟩
  · omega
  · cases hnext.symm.trans ht
    obtain rfl := code_eq_of_responses_eq herr
    exact ⟨rfl, hsender, rfl⟩
  · cases hnext.symm.trans ht
    exact absurd herr (succeedsWith_responses_ne _ s c)

end

/-- The decoder passes on only assigned register numbers (R78, R86). -/
theorem register_lt_of_decode {w : CommandWord} {reg : BitVec 4} (h : decode w = .ok (.rdReg reg)) : reg.toNat < 8 := by
  unfold decode at h
  split at h
  case h_1 => unfold decodeInit at h; split at h <;> cases h
  case h_2 => unfold decodeBegin at h; split at h <;> cases h
  case h_3 => unfold decodeField at h; split at h <;> cases h
  case h_4 => unfold decodeEnd at h; split at h <;> cases h
  case h_5 => unfold decodeCrcInit at h; split at h <;> cases h
  case h_6 => unfold decodeCrcByte at h; split at h <;> cases h
  case h_7 =>
    unfold decodeRdReg at h
    split at h
    · split at h
      · cases h; assumption
      · cases h
    · cases h
  case h_8 => cases h

theorem illegalByRule_of_decode_error {w : CommandWord} {e : IllegalWord} (hw : decode w = .error e) : illegalByRule w := by
  by_contra hlegal
  obtain ⟨i, hok⟩ := (exists_decode_ok_iff w).mpr hlegal
  rw [hw] at hok; cases hok

end Sys2Proof.Machine

section
open Sys2Proof Sys2Proof.Machine

/-- Settles O41: a word is refused by the decoder with code 15, or it is one of the four commands that can raise an error, or
one of the three that always succeed. -/
theorem errorResponseTellsWholeEffect : Obligations.ErrorResponseTellsWholeEffect := by
  intro s t w rest c hin ht herr
  cases hw : decode w with
  | error e =>
    rw [step_of_not_decodes hin (by simp [hw])] at ht
    cases ht
    obtain rfl := code_eq_of_responses_eq herr
    exact .inr (.inr (.inr (.inr ⟨rfl, illegalByRule_of_decode_error hw, rfl⟩)))
  | ok i =>
    rw [step_of_decodes hin hw] at ht
    cases i with
    | init a b =>
      cases (exec_init a b _).symm.trans ht
      exact absurd herr (succeedsWith_responses_ne _ (newSession a b s) c)
    | beginEncode known mode msgid =>
      rcases error_of_beginEncode ht herr with ⟨rfl, rfl, hstate⟩ | ⟨rfl, hstate⟩
      · exact .inr (.inr (.inl ⟨rfl, ⟨mode, msgid, rfl⟩, hstate⟩))
      · exact .inr (.inr (.inr (.inl ⟨rfl, .inl ⟨known, mode, msgid, rfl⟩, hstate⟩)))
    | field wt present empty value =>
      rcases error_of_field ht herr with ⟨hcode, hstate⟩ | ⟨rfl, hstate⟩
      · exact .inl ⟨hcode, ⟨wt, present, empty, value, rfl⟩, hstate⟩
      · exact .inr (.inr (.inr (.inl ⟨rfl, .inr (.inl ⟨wt, present, empty, value, rfl⟩), hstate⟩)))
    | endEncode =>
      rcases error_of_endEncode ht herr with ⟨rfl, hstate⟩ | ⟨rfl, hstate⟩
      · exact .inr (.inl ⟨rfl, rfl, hstate⟩)
      · exact .inr (.inr (.inr (.inl ⟨rfl, .inr (.inr (.inl rfl)), hstate⟩)))
    | crcInit =>
      cases (exec_crcInit _).symm.trans ht
      exact absurd herr (succeedsWith_responses_ne _ s c)
    | crcByte b =>
      cases (exec_crcByte b _).symm.trans ht
      exact absurd herr (succeedsWith_responses_ne _ s c)
    | rdReg reg =>
      obtain ⟨rfl, rfl | rfl, hstate⟩ := error_of_rdReg (register_lt_of_decode hw) ht herr
      · exact .inr (.inr (.inr (.inl ⟨rfl, .inr (.inr (.inr (.inl rfl))), hstate⟩)))
      · exact .inr (.inr (.inr (.inl ⟨rfl, .inr (.inr (.inr (.inr rfl))), hstate⟩)))

/-- Settles O9: only a command word is answered, and of the codes that O41 allows an error response none is 1. -/
theorem schemaFileMissingNeverAnswered : Obligations.SchemaFileMissingNeverAnswered := by
  intro s t ht hresp
  have hword : (0x81000000#32 : ResponseWord) = errorResponse 1 := by decide
  rw [hword] at hresp
  have hno_command : ∀ w rest, s.inputs ≠ .command w :: rest := by
    intro w rest hin
    rcases errorResponseTellsWholeEffect s t w rest 1 hin ht hresp with
      ⟨hcode, -⟩ | ⟨hcode, -⟩ | ⟨hcode, -⟩ | ⟨hcode, -⟩ | ⟨hcode, -⟩ <;>
      exact absurd hcode (by decide)
  rcases step_cases s with ⟨-, hnext⟩ | ⟨rest, -, hnext⟩ | ⟨w, rest, -, hin, -⟩ | ⟨w, rest, -, hin, -⟩
  · cases hnext.symm.trans ht
    simp at hresp
  · cases hnext.symm.trans ht
    simp at hresp
  · exact hno_command w rest hin
  · exact hno_command w rest hin

end

namespace Sys2Proof.Machine

/-! ### The block before its first INIT (R234) -/

/-- An encode is only ever open in a configured block (R38 (b)). -/
theorem phase_idle_of_unconfigured {s : State} (hinv : s.Inv) (hc : s.configured = false) : s.phase = .idle := by
  obtain ⟨-, hcollect, -⟩ := hinv
  refine phase_idle_of_ne fun hp => ?_
  rw [hcollect hp] at hc
  cases hc

/-- `succeedsWith` adds one success response to those of `u`, which the command's register writes left as they were. -/
theorem answers_success_of_exec_eq {i : Instr} {s u : State} {d : BitVec 24} (hexec : exec i s = .next (succeedsWith d u))
    (hu : u.responses = s.responses) : ∃ t e, exec i s = .next t ∧ t.responses = s.responses ++ [successResponse e] :=
  ⟨_, d, hexec, congrArg (· ++ [successResponse d]) hu⟩

end Sys2Proof.Machine

section
open Sys2Proof Sys2Proof.Machine

/-- Settles O46: BEGIN and the sender ids want CONFIGURED; FIELD and END want COLLECT, which the invariant excludes before INIT.
The other four commands have no guard that CONFIGURED or PHASE can fail. -/
theorem commandsBeforeInit : Obligations.CommandsBeforeInit := by
  intro i s hinv hc hwf
  have hidle : s.phase = .idle := phase_idle_of_unconfigured hinv hc
  constructor
  · rintro (⟨known, mode, msgid, rfl⟩ | ⟨wt, present, empty, value, rfl⟩ | rfl | rfl | rfl)
    · exact exec_beginEncode_of_unready (.inl hc) known mode msgid
    · exact exec_field_of_idle hidle wt present empty value
    · exact exec_endEncode_of_idle hidle
    · exact exec_rdReg_of_senderId_unconfigured (.inl rfl) hc
    · exact exec_rdReg_of_senderId_unconfigured (.inr rfl) hc
  · rintro (⟨sysid, compid, rfl⟩ | rfl | ⟨b, rfl⟩ | ⟨reg, hne3, hne4, rfl⟩)
    · exact answers_success_of_exec_eq (exec_init sysid compid s) rfl
    · exact answers_success_of_exec_eq (exec_crcInit s) rfl
    · exact answers_success_of_exec_eq (exec_crcByte b s) rfl
    · have hreg : reg.toNat < 8 := of_decide_eq_true hwf
      exact answers_success_of_exec_eq (exec_rdReg_of_readable hreg (.inr ⟨hne3, hne4⟩)) rfl

end

namespace Sys2Proof.Machine

/-! ### What a command can answer: a refusal, an abandoned encode, or its own success -/

/-- `Success s i u`: the guards of the command `i` hold in `s`, and `u` is the state with what the command writes, before its
response is added. One constructor per command. -/
inductive Success (s : State) : Instr → State → Prop
  | init (sysid compid : Byte) : Success s (.init sysid compid) (newSession sysid compid s)
  | beginEncode (mode : CrcMode) (msgid : MsgId) (hc : s.configured = true) (hp : s.phase = .idle) :
      Success s (.beginEncode true mode msgid) (openEncode mode msgid s)
  | field {wt : BitVec 4} {present empty : Bool} {value : BitVec 65} {b : List Byte} (hp : s.phase = .collect)
      (hb : packField wt present empty (valueOf value) = .ok b) :
      Success s (.field wt present empty value) (appendPayload b s)
  | endEncode (hp : s.phase = .collect) (hl : s.plen.val ≤ 255) : Success s .endEncode (buildFrame s)
  | crcInit : Success s .crcInit { s with crc := 0xFFFF#16 }
  | crcByte (b : Byte) : Success s (.crcByte b) { s with crc := crcStep s.crc b }
  | rdReg (reg : BitVec 4) : Success s (.rdReg reg) s

/-- The three outcomes of a command in `s`: a refusal with a code of R211, an encode abandoned with a code of R210 (by FIELD or END
only), or the command's success with some response. -/
inductive Answer (s : State) (i : Instr) : State → Prop
  | refuses {c : BitVec 4} (hc : c.toNat ∈ [2, 14, 15]) : Answer s i (refusesWith c s)
  | abandons {c : BitVec 4} (hc : c.toNat ∈ [3, 4, 5, 6])
      (hi : (∃ wt p e v, i = .field wt p e v) ∨ i = .endEncode) : Answer s i (abandonsWith c s)
  | succeeds (d : BitVec 24) {u : State} (hu : Success s i u) : Answer s i (succeedsWith d u)

/-- Every command answers a next state, by one of the three outcomes. -/
theorem exec_answers (i : Instr) (s : State) : ∃ t, exec i s = .next t ∧ Answer s i t := by
  cases i with
  | init a b => exact ⟨_, exec_init a b s, .succeeds _ (.init a b)⟩
  | beginEncode known mode msgid =>
    rcases execBegin_cases known mode msgid s with ⟨-, hnext⟩ | ⟨-, -, -, hnext⟩ | ⟨hc, hp, rfl, hnext⟩
    · exact ⟨_, hnext, .refuses (by decide)⟩
    · exact ⟨_, hnext, .refuses (by decide)⟩
    · exact ⟨_, hnext, .succeeds _ (.beginEncode mode msgid hc hp)⟩
  | field wt present empty value =>
    rcases execField_cases wt present empty value s with ⟨-, hnext⟩ | ⟨e, -, he, hnext⟩ | ⟨b, hp, hb, hnext⟩
    · exact ⟨_, hnext, .refuses (by decide)⟩
    · have hcode : e.code.toNat ∈ [3, 4, 5, 6] := by
        obtain ⟨rfl | rfl | rfl, -⟩ := packField_error_kind he <;> decide
      exact ⟨_, hnext, .abandons hcode (.inl ⟨wt, present, empty, value, rfl⟩)⟩
    · exact ⟨_, hnext, .succeeds _ (.field hp hb)⟩
  | endEncode =>
    rcases execEnd_cases s with ⟨-, hnext⟩ | ⟨-, -, hnext⟩ | ⟨hp, hl, hnext⟩
    · exact ⟨_, hnext, .refuses (by decide)⟩
    · exact ⟨_, hnext, .abandons (by decide) (.inr rfl)⟩
    · exact ⟨_, hnext, .succeeds _ (.endEncode hp hl)⟩
  | crcInit => exact ⟨_, exec_crcInit s, .succeeds _ .crcInit⟩
  | crcByte b => exact ⟨_, exec_crcByte b s, .succeeds _ (.crcByte b)⟩
  | rdReg reg =>
    rcases execRdReg_cases reg s with ⟨-, hnext⟩ | ⟨-, -, -, hnext⟩ | ⟨-, -, hnext⟩
    · exact ⟨_, hnext, .refuses (by decide)⟩
    · exact ⟨_, hnext, .refuses (by decide)⟩
    · exact ⟨_, hnext, .succeeds _ (.rdReg reg)⟩

theorem answer_of_exec {i : Instr} {s t : State} (h : exec i s = .next t) : Answer s i t := by
  obtain ⟨u, hu, hanswer⟩ := exec_answers i s
  cases hu.symm.trans h
  exact hanswer

theorem Success.inputs_eq {s u : State} {i : Instr} (h : Success s i u) : u.inputs = s.inputs := by
  cases h <;> rfl

theorem Success.responses_eq {s u : State} {i : Instr} (h : Success s i u) : u.responses = s.responses := by
  cases h <;> rfl

/-! ### An invariant of the step from its three outcomes -/

/-- A property that does not depend on the inputs, and that a reset and each outcome of a command keep, is kept by every step. -/
theorem step_preserves {P : State → Prop} (htake : ∀ s rest, P s → P { s with inputs := rest })
    (hreset : ∀ s, P s → P (hardwareReset s))
    (hrefuse : ∀ s (c : BitVec 4), c.toNat ∈ [2, 14, 15] → P s → P (refusesWith c s))
    (habandon : ∀ s (c : BitVec 4), c.toNat ∈ [3, 4, 5, 6] → P s → P (abandonsWith c s))
    (hsucceed : ∀ s i d u, Success s i u → P s → P (succeedsWith d u))
    {s t : State} (hs : P s) (h : step s = .next t) : P t := by
  rcases step_cases s with ⟨-, hnext⟩ | ⟨rest, -, hnext⟩ | ⟨w, rest, i, -, -, hexec⟩ | ⟨w, rest, e, -, -, hnext⟩
  · cases hnext.symm.trans h
    exact hs
  · cases hnext.symm.trans h
    exact hreset _ (htake s rest hs)
  · have htaken := htake s rest hs
    cases answer_of_exec (hexec.symm.trans h) with
    | refuses hc => exact hrefuse _ _ hc htaken
    | abandons hc _ => exact habandon _ _ hc htaken
    | succeeds d hu => exact hsucceed _ i d _ hu htaken
  · cases hnext.symm.trans h
    exact hrefuse _ _ (by decide) (htake s rest hs)

/-! ### The forms of a response and of a frame (R80, R82, R38) -/

theorem legalResponse_errorResponse {c : BitVec 4} (hc : c.toNat ∈ [2, 3, 4, 5, 6, 14, 15]) :
    legalResponse (errorResponse c) := by
  revert c
  decide

theorem legalResponse_successResponse (d : BitVec 24) : legalResponse (successResponse d) := by
  rw [← okWord_eq, okWord]
  refine ⟨?_, .inl ⟨?_, ?_⟩⟩
  · exact (extract_append_skip 4 3 (0#1 ++ 0#3 ++ 0#4) d).trans (by decide)
  · exact (extract_append_skip 7 1 (0#1 ++ 0#3 ++ 0#4) d).trans (by decide)
  · exact (extract_append_skip 0 4 (0#1 ++ 0#3 ++ 0#4) d).trans (by decide)

theorem legalLasterr_of_code {c : BitVec 4} (hc : c.toNat ∈ [2, 3, 4, 5, 6, 14, 15]) : legalLasterr c :=
  List.mem_cons_of_mem 0 hc

theorem legalLasterr_zero : legalLasterr 0 := by decide

theorem frameShapeOk_endFrame {s : State} (hwf : Memory.wf s) (hl : s.plen.val ≤ 255) : frameShapeOk (endFrame s) := by
  have hlen := endFrame_length hwf hl
  refine ⟨by omega, by omega, rfl, ?_⟩
  rw [hlen, Nat.add_sub_cancel_left]
  exact endFrame_header_byte s (i := 0) (by decide)

/-! ### The block invariant under each outcome (R38) -/

theorem inv_append_response {s : State} {r : ResponseWord} (hs : s.Inv) (hr : legalResponse r) :
    State.Inv { s with responses := s.responses ++ [r] } := by
  obtain ⟨hidle, hcollect, hwf, hout, herr, hresp, hext⟩ := hs
  refine ⟨hidle, hcollect, hwf, hout, herr, ?_, hext⟩
  rw [List.all_append, hresp, List.all_cons, List.all_nil, decide_eq_true hr]
  rfl

theorem inv_setLasterr {s : State} {c : BitVec 4} (hs : s.Inv) (hc : legalLasterr c) : State.Inv { s with lasterr := c } := by
  obtain ⟨hidle, hcollect, hwf, hout, -, hresp, hext⟩ := hs
  exact ⟨hidle, hcollect, hwf, hout, hc, hresp, hext⟩

/-- Leaving an encode meets the clauses on PHASE, PLEN and PBUF. -/
theorem inv_clearPayload_idle {s : State} (hs : s.Inv) : State.Inv { clearPayload s with phase := .idle } := by
  obtain ⟨-, -, -, hout, herr, hresp, hext⟩ := hs
  exact ⟨fun _ => ⟨rfl, rfl⟩, nofun, clearPayload_wf s, hout, herr, hresp, hext⟩

theorem inv_refusesWith {s : State} {c : BitVec 4} (hc : c.toNat ∈ [2, 3, 4, 5, 6, 14, 15]) (hs : s.Inv) :
    (refusesWith c s).Inv :=
  inv_append_response (inv_setLasterr hs (legalLasterr_of_code hc)) (legalResponse_errorResponse hc)

theorem inv_abandonsWith {s : State} {c : BitVec 4} (hc : c.toNat ∈ [2, 3, 4, 5, 6, 14, 15]) (hs : s.Inv) :
    (abandonsWith c s).Inv :=
  inv_refusesWith hc (inv_clearPayload_idle hs)

theorem inv_hardwareReset {s : State} (hs : s.Inv) : (hardwareReset s).Inv := by
  obtain ⟨-, -, -, -, -, -, hext⟩ := hs
  exact ⟨fun _ => ⟨rfl, rfl⟩, nofun, hardwareReset_wf s, rfl, legalLasterr_zero, rfl, hext⟩

theorem inv_of_success {s u : State} {i : Instr} (h : Success s i u) (hs : s.Inv) : u.Inv := by
  obtain ⟨-, hcollect, hwf, hout, herr, hresp, hext⟩ := id hs
  cases h with
  | init a b => exact ⟨fun _ => ⟨rfl, rfl⟩, nofun, newSession_wf a b s, hout, legalLasterr_zero, hresp, hext⟩
  | beginEncode mode msgid hc hp =>
    exact ⟨nofun, fun _ => hc, openEncode_wf mode msgid s, hout, legalLasterr_zero, hresp, hext⟩
  | @field _ _ _ _ b hp _ =>
    have hne : (appendPayload b s).phase ≠ .idle := by simp [hp]
    exact ⟨fun h => absurd h hne, hcollect, appendPayload_wf b s hwf, hout, herr, hresp, hext⟩
  | endEncode hp hl =>
    refine ⟨fun _ => ⟨rfl, rfl⟩, nofun, buildFrame_wf s, ?_, herr, hresp, hext⟩
    rw [buildFrame_out, List.all_append, hout, List.all_cons, List.all_nil, decide_eq_true (frameShapeOk_endFrame hwf hl)]
    rfl
  | crcInit | crcByte | rdReg => exact hs

theorem code_of_refusal {c : BitVec 4} (hc : c.toNat ∈ [2, 14, 15]) : c.toNat ∈ [2, 3, 4, 5, 6, 14, 15] := by
  revert c
  decide

theorem code_of_abandonment {c : BitVec 4} (hc : c.toNat ∈ [3, 4, 5, 6]) : c.toNat ∈ [2, 3, 4, 5, 6, 14, 15] := by
  revert c
  decide

theorem step_preserves_inv {s t : State} (hs : s.Inv) (h : step s = .next t) : t.Inv :=
  step_preserves (P := State.Inv) (fun _ _ hs => hs) (fun _ => inv_hardwareReset)
    (fun _ _ hc => inv_refusesWith (code_of_refusal hc)) (fun _ _ hc => inv_abandonsWith (code_of_abandonment hc))
    (fun _ _ d _ hu hs => inv_append_response (inv_of_success hu hs) (legalResponse_successResponse d)) hs h

/-! ### A peer's check of an emitted frame (R51, R154) -/

theorem frameMsgId_endFrame (s : State) : frameMsgId (endFrame s) = s.msgid := by
  have hbyte : ∀ i < 10, (endFrame s).getD (i + 1) 0 = (endHeader s).getD i 0 := fun i hi => by
    rw [List.getD_eq_getElem?_getD, endFrame_header_byte s hi, List.getD_eq_getElem?_getD]
  rw [frameMsgId, hbyte 8 (by decide), hbyte 7 (by decide), hbyte 6 (by decide)]
  show s.msgid.extractLsb' (0 + 8 + 8) 8 ++ s.msgid.extractLsb' (0 + 8) 8 ++ s.msgid.extractLsb' 0 8 = s.msgid
  rw [append_extract s.msgid (0 + 8) 8 8, append_extract s.msgid 0 8 (8 + 8)]
  exact extract_all s.msgid

/-- The frame END builds passes the peer's check in the mode of the encode. -/
theorem frameVerifies_endFrame (s : State) : frameVerifies s.extraExt s.mode (endFrame s) := by
  have hcovered : frameCovered (endFrame s) = endHeader s ++ endPayload s := frameCovered_frameBytes _ _ _
  have hcrc : frameCrc (endFrame s) = endChecksum s := frameCrc_endFrame s
  cases hm : s.mode with
  | plain =>
    show crcBytes 0xFFFF#16 (frameCovered (endFrame s)) = frameCrc (endFrame s)
    rw [hcovered, hcrc, endChecksum, hm, checksum16_plain, crcInitial]
  | seeded =>
    show crcBytes 0xFFFF#16 (crcExtra s.extraExt (frameMsgId (endFrame s)) :: frameCovered (endFrame s)) = frameCrc (endFrame s)
    rw [hcovered, hcrc, frameMsgId_endFrame, endChecksum, hm, checksum16_seeded, crcInitial]
    rfl

theorem framesVerify_buildFrame {s : State} (hs : s.FramesVerify) : (buildFrame s).FramesVerify := by
  intro f hf
  rcases List.mem_append.mp hf with hold | hnew
  · exact hs f hold
  · obtain rfl := List.mem_singleton.mp hnew
    have hverifies := frameVerifies_endFrame s
    cases hm : s.mode with
    | plain => exact .inl (hm ▸ hverifies)
    | seeded => exact .inr (hm ▸ hverifies)

/-- Only END writes OUT, and nothing writes EXTRA_EXT. -/
theorem framesVerify_of_success {s u : State} {i : Instr} (h : Success s i u) (hs : s.FramesVerify) : u.FramesVerify := by
  cases h with
  | endEncode _ _ => exact framesVerify_buildFrame hs
  | init | beginEncode | field | crcInit | crcByte | rdReg => exact hs

end Sys2Proof.Machine

section
open Sys2Proof Sys2Proof.Machine

/-- Settles O4: each outcome of a command keeps the invariant, the seven successes one by one; the frame END emits has the
shape because PBUF holds PLEN bytes. -/
theorem stepKeepsBlockInvariant : Obligations.StepKeepsBlockInvariant := fun _ _ => step_preserves_inv

/-- Settles O5: only END adds a frame, and that frame carries the checksum of its own bytes in the mode of the encode. -/
theorem stepKeepsFramesVerifying : Obligations.StepKeepsFramesVerifying := fun _ _ _ =>
  step_preserves (P := State.FramesVerify) (fun _ _ hs => hs) (fun _ _ => nofun) (fun _ _ _ hs => hs) (fun _ _ _ hs => hs)
    (fun _ _ _ u hu hs => framesVerify_of_success (u := u) hu hs)

end

namespace Sys2Proof

/-! ### The fields of a word, joined and taken apart (R70, R73 to R78)

`extract_field1` is the field above the lowest one, and so on upward; `append_slice` joins two neighbouring slices. -/

section
variable {m l n₁ n₂ n₃ n₄ : Nat}

theorem extract_field1 (hi : BitVec m) (x : BitVec l) (a : BitVec n₁) : (hi ++ x ++ a).extractLsb' n₁ l = x :=
  (extract_append_skip 0 l (hi ++ x) a).trans (extract_append_low hi x)

theorem extract_field2 (hi : BitVec m) (x : BitVec l) (b : BitVec n₂) (a : BitVec n₁) :
    (hi ++ x ++ b ++ a).extractLsb' (n₁ + n₂) l = x :=
  (extract_append_skip n₂ l (hi ++ x ++ b) a).trans (extract_field1 hi x b)

theorem extract_field3 (hi : BitVec m) (x : BitVec l) (c : BitVec n₃) (b : BitVec n₂) (a : BitVec n₁) :
    (hi ++ x ++ c ++ b ++ a).extractLsb' (n₁ + (n₂ + n₃)) l = x :=
  (extract_append_skip (n₂ + n₃) l (hi ++ x ++ c ++ b) a).trans (extract_field2 hi x c b)

theorem extract_field4 (hi : BitVec m) (x : BitVec l) (d : BitVec n₄) (c : BitVec n₃) (b : BitVec n₂) (a : BitVec n₁) :
    (hi ++ x ++ d ++ c ++ b ++ a).extractLsb' (n₁ + (n₂ + (n₃ + n₄))) l = x :=
  (extract_append_skip (n₂ + (n₃ + n₄)) l (hi ++ x ++ d ++ c ++ b) a).trans (extract_field3 hi x d c b)

end

theorem append_slice (w : CommandWord) (lo len m : Nat) :
    slice (lo + len) m w ++ slice lo len w = slice lo (m + len) w :=
  append_extract w lo len m

theorem slice_all (w : CommandWord) : slice 0 80 w = w := extract_all w

theorem flagAt_of_slice {i : Nat} {w : CommandWord} {b : Bool} (h : slice i 1 w = flagBit b) : flagAt i w = b := by
  rw [flagAt, h]
  cases b <;> rfl

theorem flagBit_flagAt (i : Nat) (w : CommandWord) : flagBit (flagAt i w) = slice i 1 w := by
  have hbit : ∀ x : BitVec 1, flagBit (decide (x = 1#1)) = x := by decide
  exact hbit _

theorem ofBit_bit (m : CrcMode) : CrcMode.ofBit m.bit = m := by cases m <;> rfl

theorem bit_ofBit (b : BitVec 1) : (CrcMode.ofBit b).bit = b := by
  revert b
  decide

/-! ### Decoding the word of an instruction -/

theorem decode_encode_init (a b : Byte) : decode (encode (.init a b)) = .ok (.init a b) := by
  have hzero : slice 16 60 (encode (.init a b)) = 0#60 := extract_field2 0x1#4 0#60 a b
  have ha : slice 8 8 (encode (.init a b)) = a := extract_field1 (0x1#4 ++ 0#60) a b
  have hb : slice 0 8 (encode (.init a b)) = b := extract_append_low _ b
  rw [decode, Laws.EncodeOpcode.init a b]
  show decodeInit _ = _
  rw [decodeInit, if_pos hzero, ha, hb]

theorem decode_encode_beginEncode (known : Bool) (mode : CrcMode) (msgid : MsgId) :
    decode (encode (.beginEncode known mode msgid)) = .ok (.beginEncode known mode msgid) := by
  have hzero : slice 26 50 (encode (.beginEncode known mode msgid)) = 0#50 :=
    extract_field3 0x2#4 0#50 (flagBit known) mode.bit msgid
  have hknown : slice 25 1 (encode (.beginEncode known mode msgid)) = flagBit known :=
    extract_field2 (0x2#4 ++ 0#50) (flagBit known) mode.bit msgid
  have hmode : slice 24 1 (encode (.beginEncode known mode msgid)) = mode.bit :=
    extract_field1 (0x2#4 ++ 0#50 ++ flagBit known) mode.bit msgid
  have hid : slice 0 24 (encode (.beginEncode known mode msgid)) = msgid := extract_append_low _ msgid
  rw [decode, Laws.EncodeOpcode.beginEncode known mode msgid]
  show decodeBegin _ = _
  rw [decodeBegin, if_pos hzero, flagAt_of_slice hknown, hmode, ofBit_bit, hid]

theorem decode_encode_field (wt : BitVec 4) (present empty : Bool) (value : BitVec 65) :
    decode (encode (.field wt present empty value)) = .ok (.field wt present empty value) := by
  have hwt : slice 72 4 (encode (.field wt present empty value)) = wt :=
    extract_field4 0x3#4 wt (flagBit present) (flagBit empty) 0#5 value
  have hpresent : slice 71 1 (encode (.field wt present empty value)) = flagBit present :=
    extract_field3 (0x3#4 ++ wt) (flagBit present) (flagBit empty) 0#5 value
  have hempty : slice 70 1 (encode (.field wt present empty value)) = flagBit empty :=
    extract_field2 (0x3#4 ++ wt ++ flagBit present) (flagBit empty) 0#5 value
  have hzero : slice 65 5 (encode (.field wt present empty value)) = 0#5 :=
    extract_field1 (0x3#4 ++ wt ++ flagBit present ++ flagBit empty) 0#5 value
  have hvalue : slice 0 65 (encode (.field wt present empty value)) = value := extract_append_low _ value
  rw [decode, Laws.EncodeOpcode.field wt present empty value]
  show decodeField _ = _
  rw [decodeField, if_pos hzero, hwt, flagAt_of_slice hpresent, flagAt_of_slice hempty, hvalue]

theorem decode_encode_endEncode : decode (encode .endEncode) = .ok .endEncode := by
  have hzero : slice 0 76 (encode .endEncode) = 0#76 := extract_append_low 0x4#4 0#76
  rw [decode, Laws.EncodeOpcode.endEncode]
  show decodeEnd _ = _
  rw [decodeEnd, if_pos hzero]

theorem decode_encode_crcInit : decode (encode .crcInit) = .ok .crcInit := by
  have hzero : slice 0 76 (encode .crcInit) = 0#76 := extract_append_low 0x5#4 0#76
  rw [decode, Laws.EncodeOpcode.crcInit]
  show decodeCrcInit _ = _
  rw [decodeCrcInit, if_pos hzero]

theorem decode_encode_crcByte (b : Byte) : decode (encode (.crcByte b)) = .ok (.crcByte b) := by
  have hzero : slice 8 68 (encode (.crcByte b)) = 0#68 := extract_field1 0x6#4 0#68 b
  have hb : slice 0 8 (encode (.crcByte b)) = b := extract_append_low _ b
  rw [decode, Laws.EncodeOpcode.crcByte b]
  show decodeCrcByte _ = _
  rw [decodeCrcByte, if_pos hzero, hb]

theorem decode_encode_rdReg {reg : BitVec 4} (hreg : reg.toNat < 8) :
    decode (encode (.rdReg reg)) = .ok (.rdReg reg) := by
  have hzero : slice 4 72 (encode (.rdReg reg)) = 0#72 := extract_field1 0x7#4 0#72 reg
  have hslice : slice 0 4 (encode (.rdReg reg)) = reg := extract_append_low _ reg
  rw [decode, Laws.EncodeOpcode.rdReg reg]
  show decodeRdReg _ = _
  rw [decodeRdReg, if_pos hzero, hslice, if_pos hreg]

theorem decode_encode : ∀ {i : Instr}, i.wf = true → decode (encode i) = .ok i
  | .init a b, _ => decode_encode_init a b
  | .beginEncode known mode msgid, _ => decode_encode_beginEncode known mode msgid
  | .field wt present empty value, _ => decode_encode_field wt present empty value
  | .endEncode, _ => decode_encode_endEncode
  | .crcInit, _ => decode_encode_crcInit
  | .crcByte b, _ => decode_encode_crcByte b
  | .rdReg _, hwf => decode_encode_rdReg (of_decide_eq_true hwf)

/-! ### The word of a decoded instruction

Each format's fields and its opcode, joined again, are the whole word. -/

section
variable {w : CommandWord} {i : Instr}

theorem encode_of_decodeInit (hop : slice 76 4 w = 1#4) (h : decodeInit w = .ok i) : i.wf = true ∧ encode i = w := by
  unfold decodeInit at h
  split at h
  · next hzero =>
    cases h
    refine ⟨rfl, ?_⟩
    rw [encode, ← hop, ← hzero, append_slice w 16 60 4, append_slice w 8 8 (4 + 60), append_slice w 0 8 (4 + 60 + 8)]
    exact slice_all w
  · cases h

theorem encode_of_decodeBegin (hop : slice 76 4 w = 2#4) (h : decodeBegin w = .ok i) : i.wf = true ∧ encode i = w := by
  unfold decodeBegin at h
  split at h
  · next hzero =>
    cases h
    refine ⟨rfl, ?_⟩
    rw [encode, flagBit_flagAt, bit_ofBit, ← hop, ← hzero, append_slice w 26 50 4, append_slice w 25 1 (4 + 50),
      append_slice w 24 1 (4 + 50 + 1), append_slice w 0 24 (4 + 50 + 1 + 1)]
    exact slice_all w
  · cases h

theorem encode_of_decodeField (hop : slice 76 4 w = 3#4) (h : decodeField w = .ok i) : i.wf = true ∧ encode i = w := by
  unfold decodeField at h
  split at h
  · next hzero =>
    cases h
    refine ⟨rfl, ?_⟩
    rw [encode, flagBit_flagAt, flagBit_flagAt, ← hop, ← hzero, append_slice w 72 4 4, append_slice w 71 1 (4 + 4),
      append_slice w 70 1 (4 + 4 + 1), append_slice w 65 5 (4 + 4 + 1 + 1), append_slice w 0 65 (4 + 4 + 1 + 1 + 5)]
    exact slice_all w
  · cases h

theorem encode_of_decodeEnd (hop : slice 76 4 w = 4#4) (h : decodeEnd w = .ok i) : i.wf = true ∧ encode i = w := by
  unfold decodeEnd at h
  split at h
  · next hzero =>
    cases h
    refine ⟨rfl, ?_⟩
    rw [encode, ← hop, ← hzero, append_slice w 0 76 4]
    exact slice_all w
  · cases h

theorem encode_of_decodeCrcInit (hop : slice 76 4 w = 5#4) (h : decodeCrcInit w = .ok i) : i.wf = true ∧ encode i = w := by
  unfold decodeCrcInit at h
  split at h
  · next hzero =>
    cases h
    refine ⟨rfl, ?_⟩
    rw [encode, ← hop, ← hzero, append_slice w 0 76 4]
    exact slice_all w
  · cases h

theorem encode_of_decodeCrcByte (hop : slice 76 4 w = 6#4) (h : decodeCrcByte w = .ok i) : i.wf = true ∧ encode i = w := by
  unfold decodeCrcByte at h
  split at h
  · next hzero =>
    cases h
    refine ⟨rfl, ?_⟩
    rw [encode, ← hop, ← hzero, append_slice w 8 68 4, append_slice w 0 8 (4 + 68)]
    exact slice_all w
  · cases h

theorem encode_of_decodeRdReg (hop : slice 76 4 w = 7#4) (h : decodeRdReg w = .ok i) : i.wf = true ∧ encode i = w := by
  unfold decodeRdReg at h
  split at h
  · next hzero =>
    split at h
    · next hreg =>
      cases h
      refine ⟨decide_eq_true hreg, ?_⟩
      rw [encode, ← hop, ← hzero, append_slice w 4 72 4, append_slice w 0 4 (4 + 72)]
      exact slice_all w
    · cases h
  · cases h

theorem encode_of_decode (h : decode w = .ok i) : i.wf = true ∧ encode i = w := by
  unfold decode at h
  split at h
  case h_1 hop => exact encode_of_decodeInit (BitVec.eq_of_toNat_eq hop) h
  case h_2 hop => exact encode_of_decodeBegin (BitVec.eq_of_toNat_eq hop) h
  case h_3 hop => exact encode_of_decodeField (BitVec.eq_of_toNat_eq hop) h
  case h_4 hop => exact encode_of_decodeEnd (BitVec.eq_of_toNat_eq hop) h
  case h_5 hop => exact encode_of_decodeCrcInit (BitVec.eq_of_toNat_eq hop) h
  case h_6 hop => exact encode_of_decodeCrcByte (BitVec.eq_of_toNat_eq hop) h
  case h_7 hop => exact encode_of_decodeRdReg (BitVec.eq_of_toNat_eq hop) h
  case h_8 => cases h

end

end Sys2Proof

section
open Sys2Proof Sys2Proof.Machine

/-- Settles O11: the slices of the joined word are its fields, one lemma per command. -/
theorem decodeInvertsEncode : Obligations.DecodeInvertsEncode := fun _ => decode_encode

/-- Settles O12: the checks of each format say what its "zero" field and its opcode are, so the fields joined are the word. -/
theorem encodeInvertsDecode : Obligations.EncodeInvertsDecode := fun _ _ => encode_of_decode

/-- Settles O6: `step_of_decodes` is the step, and the decoded instruction is well-formed by O12. -/
theorem stepRunsDecodedCommand : Obligations.StepRunsDecodedCommand := fun _ _ _ _ hin hw =>
  ⟨(encode_of_decode hw).left, step_of_decodes hin hw⟩

end

namespace Sys2Proof.Machine

/-! ### The checksum as a function of the starting register, of a byte and of both (R110, R112) -/

/-- Eight zero bits below a byte are linear over XOR, bit by bit. -/
theorem append_zero_byte_xor (b b' : Byte) : (b ^^^ b') ++ 0#8 = (b ++ 0#8) ^^^ (b' ++ 0#8) := by
  rw [append_zero_byte_eq_shiftLeft, append_zero_byte_eq_shiftLeft, append_zero_byte_eq_shiftLeft, BitVec.setWidth_xor,
    BitVec.shiftLeft_xor_distrib]

theorem crcStep_xor (r r' : Crc16) (b b' : Byte) : crcStep (r ^^^ r') (b ^^^ b') = crcStep r b ^^^ crcStep r' b' := by
  have hregroup : r ^^^ r' ^^^ ((b ++ 0#8) ^^^ (b' ++ 0#8)) = r ^^^ (b ++ 0#8) ^^^ (r' ^^^ (b' ++ 0#8)) := by ac_rfl
  rw [crcStep, append_zero_byte_xor, hregroup, crcRounds_xor]
  rfl

/-- For a fixed register the update loses nothing of the byte. -/
theorem crcStep_byte_injective (r : Crc16) : Function.Injective (crcStep r) := fun b b' h => by
  have hword : b ++ 0#8 = b' ++ 0#8 := (BitVec.xor_right_inj r).mp (crcRounds_injective 8 h)
  have hbyte := congrArg (BitVec.extractLsb' (8 + 0) 8) hword
  rwa [extract_append_skip, extract_append_skip, extract_all, extract_all] at hbyte

/-- A byte anywhere in the sequence decides the checksum: the bytes before it do not depend on it, and those behind it keep two
registers apart. -/
theorem crcBytes_append_cons_injective (r : Crc16) (before after : List Byte) :
    Function.Injective fun b => crcBytes r (before ++ b :: after) := fun b b' h => by
  have hsplit : ∀ x, crcBytes r (before ++ x :: after) = crcBytes (crcStep (crcBytes r before) x) after := fun x => by
    rw [crcBytes_append, crcBytes_cons]
  have hregister : crcBytes (crcStep (crcBytes r before) b) after = crcBytes (crcStep (crcBytes r before) b') after :=
    (hsplit b).symm.trans (h.trans (hsplit b'))
  exact crcStep_byte_injective _ (crcBytes_injective after hregister)

/-- The sequence byte is one byte of what the checksum covers. -/
theorem checksum16_header10_split (ext : Config.ExtraExt) (mode : CrcMode) (id : MsgId) (len : Nat)
    (seq sysid compid : Byte) (payload : List Byte) :
    checksum16 ext mode id (header10 len seq sysid compid id) payload =
      crcBytes crcInitial (((if mode = .seeded then [crcExtra ext id] else []) ++ [BitVec.ofNat 8 len, 0, 0]) ++
        seq :: ([sysid, compid, id.extractLsb' 0 8, id.extractLsb' 8 8, id.extractLsb' 16 8, 0] ++ payload)) := by
  rw [checksum16_eq_crcBytes, header10]
  simp

/-! ### Commands executed one after the other -/

theorem execAll_cons {i : Instr} {is : List Instr} {s t : State} (h : exec i s = .next t) :
    execAll (i :: is) s = execAll is t := by
  rw [execAll, h]

theorem execAll_append {is js : List Instr} {s t : State} (h : execAll is s = .next t) :
    execAll (is ++ js) s = execAll js t := by
  induction is generalizing s with
  | nil => cases h; rfl
  | cons i is ih =>
    obtain ⟨u, hu, -⟩ := exec_answers i s
    rw [execAll_cons hu] at h
    rw [List.cons_append, execAll_cons hu, ih h]

/-- A row of CRCBYTEs folds its bytes into CRC, and keeps it that the last response carries CRC. -/
theorem execAll_crcByte (bytes : List Byte) (s : State) (earlier : List ResponseWord)
    (hlast : s.responses = earlier ++ [successResponse (s.crc.setWidth 24)]) :
    ∃ rs, execAll (bytes.map .crcByte) s = .next { s with
        crc := crcBytes s.crc bytes
        responses := earlier ++ (rs ++ [successResponse ((crcBytes s.crc bytes).setWidth 24)]) } ∧
      rs.length = bytes.length := by
  induction bytes generalizing s earlier with
  | nil =>
    refine ⟨[], ?_, rfl⟩
    rw [List.nil_append, crcBytes_nil, ← hlast]
    rfl
  | cons b bytes ih =>
    obtain ⟨rs, hrun, hlen⟩ :=
      ih (succeedsWith ((crcStep s.crc b).setWidth 24) { s with crc := crcStep s.crc b }) s.responses rfl
    refine ⟨successResponse (s.crc.setWidth 24) :: rs, ?_, congrArg (· + 1) hlen⟩
    rw [List.map_cons, execAll_cons (exec_crcByte b s), hrun]
    simp [succeedsWith, hlast]

/-! ### The bytes FIELD appends (R53, R135) -/

/-- The state after a FIELD whose `w` bytes are `b`. -/
theorem exec_field_appends {wt : BitVec 4} {present empty : Bool} {value : BitVec 65} {s : State} {b : List Byte} {w : Nat}
    (hp : s.phase = .collect) (hb : packField wt present empty (valueOf value) = .ok b) (hw : b.length = w) :
    exec (.field wt present empty value) s = .next (succeedsWith (BitVec.ofNat 24 (min (s.plen.val + w) 256)) { s with
      pbuf := memWrite s.plen.val b s.pbuf
      plen := ⟨min (s.plen.val + w) 256, by omega⟩ }) := by
  subst hw
  exact exec_field_of_packField_ok hp hb

theorem pbufByte_of_le {s : State} (hwf : Memory.wf s) {j : Nat} (hj : 255 ≤ j) : pbufByte s j = none := by
  have hlen : s.pbuf.length = min s.plen.val 255 := hwf
  exact List.getElem?_eq_none (by omega)

/-! ### The length of what `pack_field` gives (R136) -/

theorem packField_length {wt : BitVec 4} {present empty : Bool} {v : Int} {b : List Byte}
    (h : packField wt present empty v = .ok b) : b.length = ((wireTypeOf wt).map wtWidth).getD 0 := by
  rcases packField_cases wt present empty v with
    ⟨-, hpack⟩ | ⟨-, -, hpack⟩ | ⟨-, hchar, -, hpack⟩ | ⟨t, -, ht, -, ⟨-, hpack⟩ | ⟨-, -, hpack⟩⟩
  · rw [h] at hpack; cases hpack
  · rw [h] at hpack; cases hpack
  · cases h.symm.trans hpack
    rw [hchar]
    rfl
  · rw [h] at hpack; cases hpack
  · cases h.symm.trans hpack
    rw [ht]
    exact valueBytes_length t v

/-- The payload of one field more is that field's bytes in front of the payload of the rest. -/
theorem packFields_cons_ok {f : FieldOperands} {rest : List FieldOperands} {p : List Byte}
    (h : packFields (f :: rest) = .ok p) : ∃ b q, packField f.wt f.present f.empty (valueOf f.value) = .ok b ∧
      packFields rest = .ok q ∧ p = b ++ q := by
  cases hb : packField f.wt f.present f.empty (valueOf f.value) with
  | error e => simp [packFields, hb] at h
  | ok b =>
    cases hq : packFields rest with
    | error e => simp [packFields, hb, hq] at h
    | ok q => exact ⟨b, q, rfl, rfl, by simpa [packFields, hb, hq] using h.symm⟩

/-- The first error is that of the first field, or that of the rest behind a first field that packs. -/
theorem packFields_cons_error {f : FieldOperands} {rest : List FieldOperands} {e : ErrorKind}
    (h : packFields (f :: rest) = .error e) : packField f.wt f.present f.empty (valueOf f.value) = .error e ∨
      ∃ b, packField f.wt f.present f.empty (valueOf f.value) = .ok b ∧ packFields rest = .error e := by
  cases hb : packField f.wt f.present f.empty (valueOf f.value) with
  | error e' => exact .inl (by simpa [packFields, hb] using h)
  | ok b =>
    cases hq : packFields rest with
    | error e' => exact .inr ⟨b, rfl, by simpa [packFields, hb, hq] using h⟩
    | ok q => simp [packFields, hb, hq] at h

theorem packFields_length {fields : List FieldOperands} {p : List Byte} (h : packFields fields = .ok p) :
    p.length = (fields.map fun f => ((wireTypeOf f.wt).map wtWidth).getD 0).sum := by
  induction fields generalizing p with
  | nil => cases h; rfl
  | cons f rest ih =>
    obtain ⟨b, q, hb, hq, rfl⟩ := packFields_cons_ok h
    rw [List.length_append, List.map_cons, List.sum_cons, packField_length hb, ih hq]

/-! ### Reading a field's bytes back (R138) -/

/-- The natural number whose bytes, least significant first, these are. -/
def fromLe (bytes : List Byte) : Nat := bytes.foldr (fun b acc => b.toNat + 256 * acc) 0

theorem unpackField_eq (t : WireType) (bytes : List Byte) :
    unpackField t bytes = if wtSigned t ∧ 2 ^ (8 * wtWidth t - 1) ≤ fromLe bytes
      then (fromLe bytes : Int) - 2 ^ (8 * wtWidth t) else fromLe bytes := rfl

/-- `w` bytes hold a number modulo `2 ^ (8w)`. -/
theorem fromLe_le (n w : Nat) : fromLe (le n w) = n % 2 ^ (8 * w) := by
  induction w generalizing n with
  | zero => simp [le, fromLe, Nat.mod_one]
  | succ w ih =>
    have hcons : fromLe (le n (w + 1)) = n % 256 + 256 * fromLe (le (n / 256) w) := rfl
    rw [hcons, ih, show 8 * (w + 1) = 8 + 8 * w by ring, pow_add, Nat.mod_mul]
    norm_num

theorem wtHi_lt_of_unsigned {t : WireType} (ht : wtSigned t = false) : wtHi t < 2 ^ (8 * wtWidth t) := by
  revert ht; cases t <;> decide

/-- The signed types range over the two's-complement numbers of their width (R102). -/
theorem range_of_signed {t : WireType} (ht : wtSigned t = true) :
    wtLo t = -2 ^ (8 * wtWidth t - 1) ∧ wtHi t < 2 ^ (8 * wtWidth t - 1) := by
  revert ht; cases t <;> decide

theorem wtWidth_pos (t : WireType) : 0 < wtWidth t := by cases t <;> decide

/-- A residue modulo `2m` read as a signed number: from `m` up it stands for a negative one. -/
theorem signed_of_residue {v m : Int} (hlo : -m ≤ v) (hhi : v < m) :
    (if m ≤ v % (2 * m) then v % (2 * m) - 2 * m else v % (2 * m)) = v := by
  rcases Int.lt_or_le v 0 with hneg | hnonneg
  · have hmod : v % (2 * m) = v + 2 * m := by
      rw [← Int.add_emod_right, Int.emod_eq_of_lt (by omega) (by omega)]
    rw [hmod, if_pos (by omega)]
    omega
  · rw [Int.emod_eq_of_lt hnonneg (by omega), if_neg (by omega)]

theorem unpackField_valueBytes_of_unsigned {t : WireType} {v : Int} (ht : wtSigned t = false) (hlo : wtLo t ≤ v)
    (hhi : v ≤ wtHi t) : unpackField t (valueBytes t v) = v := by
  have hbytes : valueBytes t v = le v.toNat (wtWidth t) := by simp [valueBytes, ht]
  have hnonneg : 0 ≤ v := wtLo_of_unsigned ht ▸ hlo
  have hlt : v.toNat < 2 ^ (8 * wtWidth t) := by
    have hbound := lt_of_le_of_lt hhi (wtHi_lt_of_unsigned ht)
    rw [← Int.toNat_of_nonneg hnonneg] at hbound
    exact_mod_cast hbound
  rw [unpackField_eq, hbytes, fromLe_le, Nat.mod_eq_of_lt hlt, ht]
  simp [Int.toNat_of_nonneg hnonneg]

theorem unpackField_valueBytes_of_signed {t : WireType} {v : Int} (ht : wtSigned t = true) (hlo : wtLo t ≤ v)
    (hhi : v ≤ wtHi t) : unpackField t (valueBytes t v) = v := by
  obtain ⟨hbot, htop⟩ := range_of_signed ht
  have hpow : (2 : Int) ^ (8 * wtWidth t) = 2 * 2 ^ (8 * wtWidth t - 1) := by
    rw [← pow_succ', Nat.sub_add_cancel (by have := wtWidth_pos t; omega)]
  have hbytes : valueBytes t v = le (tc v (wtWidth t)) (wtWidth t) := by simp [valueBytes, ht]
  have hread : (fromLe (valueBytes t v) : Int) = v % (2 * 2 ^ (8 * wtWidth t - 1)) := by
    rw [hbytes, fromLe_le, Nat.mod_eq_of_lt (tc_lt v _), natCast_tc, hpow]
  have hcond : (wtSigned t = true ∧ 2 ^ (8 * wtWidth t - 1) ≤ fromLe (valueBytes t v)) ↔
      (2 : Int) ^ (8 * wtWidth t - 1) ≤ v % (2 * 2 ^ (8 * wtWidth t - 1)) := by
    rw [← hread, ht]
    norm_cast
    simp
  rw [unpackField_eq, if_congr hcond rfl rfl, hread, hpow]
  exact signed_of_residue (hbot ▸ hlo) (lt_of_le_of_lt hhi htop)

theorem unpackField_valueBytes {t : WireType} {v : Int} (hlo : wtLo t ≤ v) (hhi : v ≤ wtHi t) :
    unpackField t (valueBytes t v) = v := by
  cases ht : wtSigned t with
  | false => exact unpackField_valueBytes_of_unsigned ht hlo hhi
  | true => exact unpackField_valueBytes_of_signed ht hlo hhi

end Sys2Proof.Machine

section
open Sys2Proof Sys2Proof.Machine

/-- Settles O20: the value packs to its `wt_width` bytes, and FIELD appends what packs. -/
theorem fieldAppendsLittleEndianBytes : Obligations.FieldAppendsLittleEndianBytes :=
  fun _ _ _ _ _ hp ht hvalue hlo hhi =>
    exec_field_appends hp (packField_of_inRange ht hvalue hlo hhi) (by rw [List.length_map, List.length_range])

/-- Settles O21: an empty char packs to the byte A whatever its value. -/
theorem emptyCharFieldAppendsA : Obligations.EmptyCharFieldAppendsA := fun value _ hp =>
  exec_field_appends hp (packField_of_emptyChar (valueOf value)) rfl

/-- Settles O23: what each index of PBUF reads after the write is `memWrite_getElem?`; index 255 and above held nothing before
either. -/
theorem fieldWritesOnlyItsBytes : Obligations.FieldWritesOnlyItsBytes := by
  intro wt empty value b s hinv hp hb
  obtain ⟨-, -, hwf, -⟩ := hinv
  have hread : ∀ j, pbufByte (appendPayload b s) j = if 255 ≤ j then none else if j < s.plen.val then s.pbuf[j]?
      else if j < s.plen.val + b.length then b[j - s.plen.val]? else s.pbuf[j]? := fun j => memWrite_getElem? s b j hwf
  refine ⟨_, exec_field_of_packField_ok hp hb, rfl, fun k hk hlow => ?written, fun j hj => ?dropped, fun j hj => ?kept⟩
  case written =>
    refine (hread _).trans ?_
    rw [if_neg (by omega), if_neg (by omega), if_pos (by omega), Nat.add_sub_cancel_left]
  case dropped => exact (hread j).trans (if_pos hj)
  case kept =>
    refine (hread j).trans ?_
    by_cases hhigh : 255 ≤ j
    · rw [if_pos hhigh, pbufByte_of_le hwf hhigh]
    · rw [if_neg hhigh]
      rcases hj with hbelow | habove
      · rw [if_pos hbelow, pbufByte]
      · rw [if_neg (by omega), if_neg (by omega), pbufByte]

/-- Settles O24: an unsigned value is below `2 ^ (8w)` and its bytes hold it; a signed one is read back from its residue. -/
theorem packThenUnpackRecoversValue : Obligations.PackThenUnpackRecoversValue := by
  intro wt t v ht hlo hhi
  refine ⟨valueBytes t v, ?_, valueBytes_length t v, unpackField_valueBytes hlo hhi⟩
  rw [packField_of_inRange ht (by simp) hlo hhi, valueBytes_eq_map hlo]

/-- Settles O25, by induction on the fields: each that packs gives as many bytes as its type is wide. -/
theorem payloadLengthIsSumOfWidths : Obligations.PayloadLengthIsSumOfWidths := fun _ _ => packFields_length

/-- Settles O33: the byte enters the register by XOR, and each of the eight rounds is linear. -/
theorem crcStepIsLinear : Obligations.CrcStepIsLinear := crcStep_xor

/-- Settles O34: the fold is injective, and an injective map of a finite set to itself is a bijection. -/
theorem crcBytesIsBijection : Obligations.CrcBytesIsBijection := fun bytes =>
  Finite.injective_iff_bijective.mp (crcBytes_injective bytes)

/-- Settles O36: the sequence byte is one of the bytes covered, and one byte decides the checksum when the others are fixed. -/
theorem sequenceByteChangesChecksum : Obligations.SequenceByteChangesChecksum := by
  intro ext mode id len sysid compid seq seq' payload hne heq
  rw [checksum16_header10_split, checksum16_header10_split] at heq
  exact hne (crcBytes_append_cons_injective crcInitial _ _ heq)

/-- Settles O40: CRCINIT answers CRC's start value, and by induction each CRCBYTE answers what CRC then holds. -/
theorem crcOfComputesChecksum : Obligations.CrcOfComputesChecksum := by
  intro bytes s
  obtain ⟨rs, hrun, hlen⟩ := execAll_crcByte bytes (succeedsWith 0x00FFFF#24 { s with crc := 0xFFFF#16 }) s.responses rfl
  refine ⟨rs, _, ?_, hlen, rfl⟩
  rw [crcOfCommands, execAll_cons (exec_crcInit s), hrun]
  rfl

end

namespace Sys2Proof.Machine

/-! ### Which registers a success leaves as they were (R21 to R32, R35, R130) -/

section
variable {s u : State} {i : Instr}

theorem Success.senderIds_eq (h : Success s i u) (hi : ∀ a b, i ≠ .init a b) :
    u.sysid = s.sysid ∧ u.compid = s.compid ∧ u.configured = s.configured := by
  cases h with
  | init a b => exact absurd rfl (hi a b)
  | _ => exact ⟨rfl, rfl, rfl⟩

theorem Success.msgid_mode_eq (h : Success s i u) (hi : ∀ k m id, i ≠ .beginEncode k m id) :
    u.msgid = s.msgid ∧ u.mode = s.mode := by
  cases h with
  | beginEncode mode msgid => exact absurd rfl (hi true mode msgid)
  | _ => exact ⟨rfl, rfl⟩

theorem Success.crc_eq (h : Success s i u) (hinit : i ≠ .crcInit) (hbyte : ∀ b, i ≠ .crcByte b) (hend : i ≠ .endEncode) :
    u.crc = s.crc := by
  cases h with
  | crcInit => exact absurd rfl hinit
  | crcByte b => exact absurd rfl (hbyte b)
  | endEncode => exact absurd rfl hend
  | _ => rfl

theorem Success.out_eq (h : Success s i u) (hend : i ≠ .endEncode) : u.out = s.out := by
  cases h with
  | endEncode => exact absurd rfl hend
  | _ => rfl

theorem Success.seq_eq (h : Success s i u) (hinit : ∀ a b, i ≠ .init a b) (hend : i ≠ .endEncode) : u.seq = s.seq := by
  cases h with
  | init a b => exact absurd rfl (hinit a b)
  | endEncode => exact absurd rfl hend
  | _ => rfl

theorem Success.lasterr_eq (h : Success s i u) (hinit : ∀ a b, i ≠ .init a b) (hbegin : ∀ k m id, i ≠ .beginEncode k m id) :
    u.lasterr = s.lasterr := by
  cases h with
  | init a b => exact absurd rfl (hinit a b)
  | beginEncode mode msgid => exact absurd rfl (hbegin true mode msgid)
  | _ => rfl

theorem Success.phase_eq_of_field (h : Success s i u) (hi : ∃ wt p e v, i = .field wt p e v) : u.phase = s.phase := by
  obtain ⟨wt, p, e, v, rfl⟩ := hi
  cases h
  rfl

theorem Success.payload_eq (h : Success s i u) (hi : i = .crcInit ∨ (∃ b, i = .crcByte b) ∨ ∃ r, i = .rdReg r) :
    u.phase = s.phase ∧ u.plen = s.plen ∧ u.pbuf = s.pbuf := by
  rcases hi with rfl | ⟨b, rfl⟩ | ⟨r, rfl⟩ <;> cases h <;> exact ⟨rfl, rfl, rfl⟩

theorem Success.modelFields_eq (h : Success s i u) : u.extraExt = s.extraExt ∧ u.freeIndex = s.freeIndex := by
  cases h <;> exact ⟨rfl, rfl⟩

end

/-- FIELD and END are none of the commands that touch neither PHASE nor the payload. -/
theorem not_abandoning {i : Instr} (hi : (∃ wt p e v, i = .field wt p e v) ∨ i = .endEncode) :
    ¬(i = .crcInit ∨ (∃ b, i = .crcByte b) ∨ ∃ r, i = .rdReg r) := by
  rcases hi with ⟨wt, p, e, v, rfl⟩ | rfl <;> simp

theorem inputs_eq_of_answer {s t : State} {i : Instr} (h : Answer s i t) : t.inputs = s.inputs := by
  cases h with
  | refuses => rfl
  | abandons => rfl
  | succeeds d hu => exact hu.inputs_eq

/-! ### The step of each kind of input -/

theorem step_of_nil {s : State} (hin : s.inputs = []) : step s = .next s := by
  rw [step, takeInput, hin]

theorem step_of_reset {s : State} {rest : List HostInput} (hin : s.inputs = .hardwareReset :: rest) :
    step s = .next (hardwareReset { s with inputs := rest }) := by
  rw [step, takeInput, hin]

/-- A command word is taken and answered: as its instruction does, or as an illegal word. -/
theorem step_answers {s : State} {w : CommandWord} {rest : List HostInput} (hin : s.inputs = .command w :: rest) :
    ∃ t, step s = .next t ∧ ((∃ i, decode w = .ok i ∧ Answer { s with inputs := rest } i t) ∨
      ((∃ e, decode w = .error e) ∧ t = refusesWith 15 { s with inputs := rest })) := by
  cases hw : decode w with
  | ok i =>
    obtain ⟨t, hexec, hanswer⟩ := exec_answers i { s with inputs := rest }
    exact ⟨t, (step_of_decodes hin hw).trans hexec, .inl ⟨i, rfl, hanswer⟩⟩
  | error e => exact ⟨_, step_of_not_decodes hin (by simp [hw]), .inr ⟨⟨e, rfl⟩, rfl⟩⟩

theorem response_of_answer {s t : State} {i : Instr} (h : Answer s i t) :
    ∃ r, t.responses = s.responses ++ [r] ∧ legalResponse r := by
  cases h with
  | @refuses c hc => exact ⟨errorResponse c, rfl, legalResponse_errorResponse (code_of_refusal hc)⟩
  | @abandons c hc _ => exact ⟨errorResponse c, rfl, legalResponse_errorResponse (code_of_abandonment hc)⟩
  | succeeds d hu =>
    exact ⟨successResponse d, congrArg (· ++ [successResponse d]) hu.responses_eq, legalResponse_successResponse d⟩

/-! ### The sequence values of the frames of a session (R176, R38 (d), R60) -/

/-- From `s` to `t` some frames have been emitted, SEQ has advanced by their number, and they carry its values in order. -/
def CarriesSequence (s t : State) : Prop :=
  ∃ frames, t.out = s.out ++ frames ∧ t.seq = s.seq + BitVec.ofNat 8 frames.length ∧
    ∀ k f, frames[k]? = some f → f[4]? = some (s.seq + BitVec.ofNat 8 k)

theorem carriesSequence_of_unchanged {s t : State} (hout : t.out = s.out) (hseq : t.seq = s.seq) : CarriesSequence s t :=
  ⟨[], by simp [hout], by simp [hseq], nofun⟩

theorem carriesSequence_of_frame {s t : State} {f : List Byte} (hout : t.out = s.out ++ [f]) (hseq : t.seq = s.seq + 1)
    (hf : f[4]? = some s.seq) : CarriesSequence s t := by
  refine ⟨[f], hout, hseq, fun k g hg => ?_⟩
  obtain ⟨hk, rfl⟩ : k = 0 ∧ f = g := by
    cases k with
    | zero => exact ⟨rfl, Option.some.inj hg⟩
    | succ k => cases hg
  rw [hk, hf, BitVec.add_zero]

theorem CarriesSequence.trans {s t u : State} (hst : CarriesSequence s t) (htu : CarriesSequence t u) :
    CarriesSequence s u := by
  obtain ⟨fs, hout, hseq, hfs⟩ := hst
  obtain ⟨gs, hout', hseq', hgs⟩ := htu
  have hshift : ∀ k, t.seq + BitVec.ofNat 8 k = s.seq + BitVec.ofNat 8 (fs.length + k) := fun k => by
    rw [hseq, BitVec.ofNat_add, BitVec.add_assoc]
  refine ⟨fs ++ gs, by rw [hout', hout, List.append_assoc], by rw [hseq', hshift, List.length_append], fun k f hf => ?_⟩
  rcases Nat.lt_or_ge k fs.length with hk | hk
  · exact hfs k f (by rwa [List.getElem?_append_left hk] at hf)
  · rw [List.getElem?_append_right hk] at hf
    rw [hgs _ f hf, hshift, Nat.add_sub_cancel' hk]

/-- A step with an input of the session: it emits no frame or one, and leaves inputs of the session. -/
theorem carriesSequence_of_step {s t : State} (hsession : ∀ x ∈ s.inputs, staysInSession x = true)
    (h : step s = .next t) : CarriesSequence s t ∧ ∀ x ∈ t.inputs, staysInSession x = true := by
  cases hin : s.inputs with
  | nil =>
    cases (step_of_nil hin).symm.trans h
    exact ⟨carriesSequence_of_unchanged rfl rfl, by simp [hin]⟩
  | cons x rest =>
    have hx : staysInSession x = true := hsession x (by simp [hin])
    have hrest : ∀ y ∈ rest, staysInSession y = true := fun y hy => hsession y (by simp [hin, hy])
    cases x with
    | hardwareReset => cases hx
    | command w =>
      obtain ⟨t', hstep, hanswer⟩ := step_answers hin
      cases hstep.symm.trans h
      have hinputs : t.inputs = rest := by
        rcases hanswer with ⟨i, -, hi⟩ | ⟨-, rfl⟩
        · exact inputs_eq_of_answer hi
        · rfl
      refine ⟨?_, hinputs ▸ hrest⟩
      rcases seqAdvancesExactlyOnEmission s t w rest hin h with
        ⟨-, hseq, ⟨f, hout, hf⟩, -⟩ | ⟨⟨a, b, hinit⟩, -⟩ | ⟨-, hseq, hout, -⟩
      · exact carriesSequence_of_frame hout hseq hf
      · simp [staysInSession, hinit] at hx
      · exact carriesSequence_of_unchanged hout hseq

theorem runSteps_succ {n : Nat} {s t : State} (h : step s = .next t) : runSteps (n + 1) s = runSteps n t := by
  rw [runSteps, h]

/-- A step always answers a next state ("Nothing in this block is `stuck`"). -/
theorem exists_step (s : State) : ∃ t, step s = .next t := by
  rcases step_cases s with ⟨-, hnext⟩ | ⟨_, -, hnext⟩ | ⟨w, rest, i, -, -, hexec⟩ | ⟨_, _, _, -, -, hnext⟩
  · exact ⟨_, hnext⟩
  · exact ⟨_, hnext⟩
  · obtain ⟨t, ht, -⟩ := exec_answers i { s with inputs := rest }
    exact ⟨t, hexec.trans ht⟩
  · exact ⟨_, hnext⟩

theorem carriesSequence_of_runSteps {n : Nat} {s t : State} (hsession : ∀ x ∈ s.inputs, staysInSession x = true)
    (h : runSteps n s = .next t) : CarriesSequence s t := by
  induction n generalizing s with
  | zero => cases h; exact carriesSequence_of_unchanged rfl rfl
  | succ n ih =>
    obtain ⟨u, hstep⟩ := exists_step s
    rw [runSteps_succ hstep] at h
    obtain ⟨hfirst, hsession'⟩ := carriesSequence_of_step hsession hstep
    exact hfirst.trans (ih hsession' h)

/-! ### What SYSID and COMPID hold before INIT (R21, R22, R231) -/

/-- `s` with other values in the sender ids. -/
def withSenderIds (a b : Byte) (s : State) : State := { s with sysid := a, compid := b }

theorem agrees_withSenderIds {s : State} (hc : s.configured = false) (a b : Byte) :
    agreesButUnconfiguredIds s (withSenderIds a b s) :=
  ⟨rfl, fun hconfigured => absurd (hc.symm.trans hconfigured) (by decide)⟩

theorem agrees_refl (s : State) : agreesButUnconfiguredIds s s := ⟨rfl, fun _ => rfl⟩

/-- Two states in the relation are equal, or unconfigured with other sender ids. -/
theorem agrees_cases {s t : State} (h : agreesButUnconfiguredIds s t) :
    t = s ∨ (s.configured = false ∧ t = withSenderIds t.sysid t.compid s) := by
  obtain ⟨hids, hconfigured⟩ := h
  cases hc : s.configured with
  | true => exact .inl (hconfigured hc)
  | false => exact .inr ⟨rfl, hids⟩

/-- The registers that a block before INIT can read are not the sender ids. -/
theorem readRegister_withSenderIds {reg : BitVec 4} (h3 : reg ≠ 3) (h4 : reg ≠ 4) (a b : Byte) (s : State) :
    readRegister reg (withSenderIds a b s) = readRegister reg s := by
  have h3' : reg.toNat ≠ 3 := fun h => h3 (BitVec.eq_of_toNat_eq h)
  have h4' : reg.toNat ≠ 4 := fun h => h4 (BitVec.eq_of_toNat_eq h)
  unfold readRegister
  split
  case h_4 h => exact absurd h h3'
  case h_5 h => exact absurd h h4'
  all_goals rfl

theorem agrees_of_exec_eq {i : Instr} {s u : State} {a b : Byte} (hs : exec i s = .next u)
    (ht : exec i (withSenderIds a b s) = .next (withSenderIds a b u)) (hu : u.configured = false) :
    ∃ s' t', exec i s = .next s' ∧ exec i (withSenderIds a b s) = .next t' ∧ agreesButUnconfiguredIds s' t' :=
  ⟨_, _, hs, ht, agrees_withSenderIds hu a b⟩

/-- Before INIT every command but INIT does the same whatever the sender ids hold, and leaves them; INIT overwrites them. -/
theorem exec_agrees {s : State} (hc : s.configured = false) (hp : s.phase = .idle) (a b : Byte) (i : Instr) :
    ∃ s' t', exec i s = .next s' ∧ exec i (withSenderIds a b s) = .next t' ∧ agreesButUnconfiguredIds s' t' := by
  cases i with
  | init x y => exact ⟨_, _, exec_init x y s, exec_init x y _, agrees_refl _⟩
  | beginEncode known mode msgid =>
    exact agrees_of_exec_eq (exec_beginEncode_of_unready (.inl hc) known mode msgid)
      (exec_beginEncode_of_unready (s := withSenderIds a b s) (.inl hc) known mode msgid) hc
  | field wt present empty value =>
    exact agrees_of_exec_eq (exec_field_of_idle hp wt present empty value)
      (exec_field_of_idle (s := withSenderIds a b s) hp wt present empty value) hc
  | endEncode =>
    exact agrees_of_exec_eq (exec_endEncode_of_idle hp) (exec_endEncode_of_idle (s := withSenderIds a b s) hp) hc
  | crcInit => exact agrees_of_exec_eq (exec_crcInit s) (exec_crcInit _) hc
  | crcByte x => exact agrees_of_exec_eq (exec_crcByte x s) (exec_crcByte x _) hc
  | rdReg reg =>
    by_cases hassigned : 8 ≤ reg.toNat
    · exact agrees_of_exec_eq (exec_rdReg_of_unassigned hassigned s) (exec_rdReg_of_unassigned hassigned _) hc
    by_cases hsender : reg = 3 ∨ reg = 4
    · exact agrees_of_exec_eq (exec_rdReg_of_senderId_unconfigured hsender hc)
        (exec_rdReg_of_senderId_unconfigured (s := withSenderIds a b s) hsender hc) hc
    · obtain ⟨h3, h4⟩ := not_or.mp hsender
      have hread := exec_rdReg_of_readable (s := withSenderIds a b s) (Nat.lt_of_not_le hassigned) (.inr ⟨h3, h4⟩)
      rw [readRegister_withSenderIds h3 h4] at hread
      exact agrees_of_exec_eq (exec_rdReg_of_readable (Nat.lt_of_not_le hassigned) (.inr ⟨h3, h4⟩)) hread hc

/-- One step keeps two states in the relation: a configured pair is one state, and before INIT no step shows the sender ids. -/
theorem step_agrees {s t : State} (hinv : s.Inv) (h : agreesButUnconfiguredIds s t) :
    ∃ s' t', step s = .next s' ∧ step t = .next t' ∧ agreesButUnconfiguredIds s' t' := by
  rcases agrees_cases h with rfl | ⟨hc, ht⟩
  · obtain ⟨u, hu⟩ := exists_step t
    exact ⟨u, u, hu, hu, agrees_refl u⟩
  generalize t.sysid = a, t.compid = b at ht
  subst ht
  have hp : s.phase = .idle := phase_idle_of_unconfigured hinv hc
  cases hin : s.inputs with
  | nil =>
    exact ⟨_, _, step_of_nil hin, step_of_nil (s := withSenderIds a b s) hin, agrees_withSenderIds hc a b⟩
  | cons x rest =>
    have hin' : (withSenderIds a b s).inputs = x :: rest := hin
    cases x with
    | hardwareReset =>
      exact ⟨_, _, step_of_reset hin, step_of_reset hin', agrees_refl _⟩
    | command w =>
      cases hw : decode w with
      | ok i =>
        rw [step_of_decodes hin hw, step_of_decodes hin' hw]
        exact exec_agrees (s := { s with inputs := rest }) hc hp a b i
      | error e =>
        rw [step_of_not_decodes hin (by simp [hw]), step_of_not_decodes hin' (by simp [hw])]
        exact ⟨_, _, rfl, rfl, agrees_withSenderIds (s := refusesWith 15 { s with inputs := rest }) hc a b⟩

theorem runSteps_agrees (n : Nat) {s t : State} (hinv : s.Inv) (h : agreesButUnconfiguredIds s t) :
    ∃ s' t', runSteps n s = .next s' ∧ runSteps n t = .next t' ∧ agreesButUnconfiguredIds s' t' := by
  induction n generalizing s t with
  | zero => exact ⟨s, t, rfl, rfl, h⟩
  | succ n ih =>
    obtain ⟨s₁, t₁, hs, ht, hagree⟩ := step_agrees hinv h
    rw [runSteps_succ hs, runSteps_succ ht]
    exact ih (step_preserves_inv hinv hs) hagree

end Sys2Proof.Machine

section
open Sys2Proof Sys2Proof.Machine

/-- Settles O49: `CarriesSequence` holds over each step by O43 and is transitive. -/
theorem sessionFramesCarrySuccessiveSequence : Obligations.SessionFramesCarrySuccessiveSequence :=
  fun _ _ _ => carriesSequence_of_runSteps

/-- Settles O50: each step keeps the relation, because before INIT the block is idle and every command that would show a sender id
is refused; INIT writes both. -/
theorem unconfiguredSenderIdsDoNotLeak : Obligations.UnconfiguredSenderIdsDoNotLeak := fun n _ _ => runSteps_agrees n

/-- Settles O8: each of the three outcomes adds one response, and so does an illegal word. -/
theorem everyWordGetsOneResponse : Obligations.EveryWordGetsOneResponse := by
  intro s w rest hin
  obtain ⟨t, hstep, ⟨i, -, hi⟩ | ⟨-, rfl⟩⟩ := step_answers hin
  · obtain ⟨r, hresp, hlegal⟩ := response_of_answer hi
    exact ⟨t, r, hstep, inputs_eq_of_answer hi, hresp, hlegal⟩
  · exact ⟨_, errorResponse 15, hstep, rfl, rfl, legalResponse_errorResponse (by decide)⟩

/-- Settles O42: the two kinds of error write their code; of the successes only INIT and BEGIN write LASTERR. -/
theorem lastErrFollowsResponses : Obligations.LastErrFollowsResponses := by
  intro s t w rest hin ht
  obtain ⟨t', hstep, ⟨i, hw, hi⟩ | ⟨-, rfl⟩⟩ := step_answers hin
  · cases hstep.symm.trans ht
    cases hi with
    | refuses => exact .inl ⟨_, rfl, rfl⟩
    | abandons => exact .inl ⟨_, rfl, rfl⟩
    | succeeds d hu =>
      refine .inr ⟨⟨d, congrArg (· ++ [successResponse d]) hu.responses_eq⟩, ?_⟩
      rw [hw]
      cases hu <;> rfl
  · cases hstep.symm.trans ht
    exact .inl ⟨15, rfl, rfl⟩

/-- Settles O44: an error writes LASTERR and what ends an encode; for a success there is one lemma per register. -/
theorem registersWrittenOnlyByTheirCommands : Obligations.RegistersWrittenOnlyByTheirCommands := by
  intro i s t ht
  cases answer_of_exec ht with
  | @refuses c _ =>
    exact ⟨fun _ => ⟨rfl, rfl, rfl⟩, fun _ => ⟨rfl, rfl⟩, fun _ _ _ => rfl, fun _ => rfl, fun _ _ => rfl,
      fun hno => absurd rfl (hno c), fun hno => absurd rfl (hno c), fun _ => ⟨rfl, rfl, rfl⟩, rfl, rfl, rfl⟩
  | @abandons c _ hi =>
    exact ⟨fun _ => ⟨rfl, rfl, rfl⟩, fun _ => ⟨rfl, rfl⟩, fun _ _ _ => rfl, fun _ => rfl, fun _ _ => rfl,
      fun hno => absurd rfl (hno c), fun hno => absurd rfl (hno c), fun hpure => absurd hpure (not_abandoning hi), rfl, rfl, rfl⟩
  | succeeds d hu =>
    obtain ⟨hext, hfree⟩ := hu.modelFields_eq
    exact ⟨hu.senderIds_eq, hu.msgid_mode_eq, hu.crc_eq, hu.out_eq, hu.seq_eq,
      fun _ => hu.lasterr_eq, fun _ => hu.phase_eq_of_field, hu.payload_eq, hu.inputs_eq, hext, hfree⟩

/-- Settles O45: the guards of BEGIN, FIELD and END decide between staying and moving; the other commands have no say in PHASE
but INIT, which ends any encode. -/
theorem phaseMachineTable : Obligations.PhaseMachineTable := by
  intro i s
  cases i with
  | init a b => exact ⟨_, exec_init a b s, rfl⟩
  | beginEncode known mode msgid =>
    rcases execBegin_cases known mode msgid s with ⟨hunready, hnext⟩ | ⟨-, -, rfl, hnext⟩ | ⟨hc, hp, rfl, hnext⟩
    · exact ⟨_, hnext, (if_neg fun ⟨hc, hp, _⟩ => not_unready_of_configured_idle hc hp hunready).symm⟩
    · exact ⟨_, hnext, (if_neg (by simp)).symm⟩
    · exact ⟨_, hnext, (if_pos ⟨hc, hp, rfl⟩).symm⟩
  | field wt present empty value =>
    rcases execField_cases wt present empty value s with ⟨hp, hnext⟩ | ⟨e, hp, he, hnext⟩ | ⟨b, hp, hb, hnext⟩
    · refine ⟨_, hnext, ?_⟩
      simp only [hp]
      exact hp
    · refine ⟨_, hnext, ?_⟩
      rw [valueOf] at he
      simp only [hp, he]
      rfl
    · refine ⟨_, hnext, ?_⟩
      rw [valueOf] at hb
      simp only [hp, hb]
      exact hp
  | endEncode =>
    rcases execEnd_cases s with ⟨hp, hnext⟩ | ⟨-, -, hnext⟩ | ⟨-, -, hnext⟩
    · exact ⟨_, hnext, hp⟩
    · exact ⟨_, hnext, rfl⟩
    · exact ⟨_, hnext, rfl⟩
  | crcInit => exact ⟨_, exec_crcInit s, rfl⟩
  | crcByte b => exact ⟨_, exec_crcByte b s, rfl⟩
  | rdReg reg =>
    rcases execRdReg_cases reg s with ⟨-, hnext⟩ | ⟨-, -, -, hnext⟩ | ⟨-, -, hnext⟩
    · exact ⟨_, hnext, rfl⟩
    · exact ⟨_, hnext, rfl⟩
    · exact ⟨_, hnext, rfl⟩

end

namespace Sys2Proof.Machine

/-! ### Stepping through presented words is executing the instructions (R58) -/

/-- `s` with other things presented. -/
def withInputs (inputs : List HostInput) (s : State) : State := { s with inputs := inputs }

theorem withInputs_withInputs {s : State} {x : List HostInput} (hs : s.inputs = x) (y : List HostInput) :
    withInputs x (withInputs y s) = s := by
  subst hs
  rfl

/-- No command looks at what is still presented: each guard and each effect is the same whatever stands there. -/
theorem exec_withInputs (x : List HostInput) {i : Instr} {s t : State} (h : exec i s = .next t) :
    exec i (withInputs x s) = .next (withInputs x t) := by
  cases i with
  | init a b =>
    cases (exec_init a b s).symm.trans h
    exact exec_init a b (withInputs x s)
  | beginEncode known mode msgid =>
    change execBegin known mode msgid s = .next t at h
    rcases execBegin_cases known mode msgid s with ⟨hunready, hnext⟩ | ⟨hc, hp, rfl, hnext⟩ | ⟨hc, hp, rfl, hnext⟩ <;>
      cases hnext.symm.trans h
    · exact exec_beginEncode_of_unready (s := withInputs x s) hunready known mode msgid
    · exact exec_beginEncode_of_unknown (s := withInputs x s) hc hp mode msgid
    · exact exec_beginEncode_of_known (s := withInputs x s) hc hp mode msgid
  | field wt present empty value =>
    change execField wt present empty value s = .next t at h
    rcases execField_cases wt present empty value s with ⟨hp, hnext⟩ | ⟨e, hp, he, hnext⟩ | ⟨b, hp, hb, hnext⟩ <;>
      cases hnext.symm.trans h
    · exact exec_field_of_idle (s := withInputs x s) hp wt present empty value
    · exact exec_field_of_packField_error (s := withInputs x s) hp he
    · exact exec_field_of_packField_ok (s := withInputs x s) hp hb
  | endEncode =>
    change execEnd s = .next t at h
    rcases execEnd_cases s with ⟨hp, hnext⟩ | ⟨hp, hl, hnext⟩ | ⟨hp, hl, hnext⟩ <;> cases hnext.symm.trans h
    · exact exec_endEncode_of_idle (s := withInputs x s) hp
    · exact exec_endEncode_of_overlong (s := withInputs x s) hp hl
    · exact exec_endEncode_of_fits (s := withInputs x s) hp hl
  | crcInit =>
    cases (exec_crcInit s).symm.trans h
    exact exec_crcInit (withInputs x s)
  | crcByte b =>
    cases (exec_crcByte b s).symm.trans h
    exact exec_crcByte b (withInputs x s)
  | rdReg reg =>
    change execRdReg reg s = .next t at h
    rcases execRdReg_cases reg s with ⟨hreg, hnext⟩ | ⟨-, hsender, hc, hnext⟩ | ⟨hreg, hreadable, hnext⟩ <;>
      cases hnext.symm.trans h
    · exact exec_rdReg_of_unassigned hreg (withInputs x s)
    · exact exec_rdReg_of_senderId_unconfigured (s := withInputs x s) hsender hc
    · have hreadable' : s.configured = true ∨ (reg ≠ 3 ∧ reg ≠ 4) := by
        simpa [or_comm, imp_iff_not_or] using hreadable
      exact exec_rdReg_of_readable (s := withInputs x s) hreg hreadable'

theorem runSteps_presented {is : List Instr} {s : State} {rest : List HostInput} (hwf : ∀ i ∈ is, i.wf = true)
    (hin : s.inputs = presented is ++ rest) :
    ∃ t, execAll is (withInputs rest s) = .next t ∧ runSteps is.length s = .next t := by
  induction is generalizing s with
  | nil => exact ⟨s, congrArg Host.Outcome.next (withInputs_withInputs hin s.inputs), rfl⟩
  | cons i is ih =>
    obtain ⟨u, hexec, hanswer⟩ := exec_answers i (withInputs rest s)
    have hstep : step s = .next (withInputs (presented is ++ rest) u) := by
      rw [step_of_decodes hin (decode_encode (hwf i List.mem_cons_self))]
      exact exec_withInputs (s := withInputs rest s) _ hexec
    have hrest : u.inputs = rest := inputs_eq_of_answer hanswer
    obtain ⟨t, hall, hsteps⟩ := ih (s := withInputs (presented is ++ rest) u) (fun j hj => hwf j (List.mem_cons_of_mem i hj)) rfl
    rw [withInputs_withInputs hrest] at hall
    exact ⟨t, (execAll_cons hexec).trans hall, (runSteps_succ hstep).trans hsteps⟩

/-! ### Runs within an encode

Until END succeeds, the commands of an encode leave the sender ids, SEQ, OUT, the parameter and the input side. -/

/-- What BEGIN, FIELD and a failing END leave as it was. -/
structure KeepsSession (s t : State) : Prop where
  sysid : t.sysid = s.sysid
  compid : t.compid = s.compid
  seq : t.seq = s.seq
  out : t.out = s.out
  inputs : t.inputs = s.inputs
  extraExt : t.extraExt = s.extraExt

theorem KeepsSession.trans {s t u : State} (hst : KeepsSession s t) (htu : KeepsSession t u) : KeepsSession s u :=
  ⟨htu.sysid.trans hst.sysid, htu.compid.trans hst.compid, htu.seq.trans hst.seq, htu.out.trans hst.out,
    htu.inputs.trans hst.inputs, htu.extraExt.trans hst.extraExt⟩

/-- Executing `is` in `s` ends in `t`, adds the responses `rs` and keeps the session. -/
structure Runs (is : List Instr) (s t : State) (rs : List ResponseWord) : Prop where
  run : execAll is s = .next t
  keeps : KeepsSession s t
  responses : t.responses = s.responses ++ rs

section
variable {i : Instr} {is js : List Instr} {s t u : State} {r : ResponseWord} {rs ss : List ResponseWord}

theorem Runs.nil : Runs [] s s [] := ⟨rfl, ⟨rfl, rfl, rfl, rfl, rfl, rfl⟩, (List.append_nil _).symm⟩

theorem Runs.cons (hexec : exec i s = .next t) (hkeeps : KeepsSession s t) (hresp : t.responses = s.responses ++ [r])
    (h : Runs is t u rs) : Runs (i :: is) s u (r :: rs) :=
  ⟨(execAll_cons hexec).trans h.run, hkeeps.trans h.keeps, by rw [h.responses, hresp, List.append_assoc, List.singleton_append]⟩

theorem Runs.append (h : Runs is s t rs) (h' : Runs js t u ss) : Runs (is ++ js) s u (rs ++ ss) :=
  ⟨(execAll_append h.run).trans h'.run, h.keeps.trans h'.keeps, by rw [h'.responses, h.responses, List.append_assoc]⟩

theorem Runs.cons_refused {c : BitVec 4} (hexec : exec i s = .next (refusesWith c s)) (h : Runs is (refusesWith c s) t rs) :
    Runs (i :: is) s t (errorResponse c :: rs) :=
  .cons hexec ⟨rfl, rfl, rfl, rfl, rfl, rfl⟩ rfl h

theorem Runs.cons_abandoned {c : BitVec 4} (hexec : exec i s = .next (abandonsWith c s))
    (h : Runs is (abandonsWith c s) t rs) : Runs (i :: is) s t (errorResponse c :: rs) :=
  .cons hexec ⟨rfl, rfl, rfl, rfl, rfl, rfl⟩ rfl h

end

/-! ### The first error among responses -/

theorem firstErrorCode_cons_error (c : BitVec 4) (rs : List ResponseWord) :
    firstErrorCode (errorResponse c :: rs) = some c := by
  have hbits : ∀ c, (errorResponse c).extractLsb' 31 1 = 1#1 ∧ (errorResponse c).extractLsb' 24 4 = c := by decide
  obtain ⟨herr, hcode⟩ := hbits c
  rw [firstErrorCode, if_pos herr, hcode]

theorem firstErrorCode_cons_success (d : BitVec 24) (rs : List ResponseWord) :
    firstErrorCode (successResponse d :: rs) = firstErrorCode rs := by
  have herr : (successResponse d).extractLsb' 31 1 ≠ 1#1 := by
    rw [← okWord_eq]
    exact ne_of_eq_of_ne (extract_append_skip 7 1 (0#1 ++ 0#3 ++ 0#4) d) (by decide)
  rw [firstErrorCode, if_neg herr]

/-- Behind responses without an error the first error is that of the rest. -/
theorem firstErrorCode_append {rs : List ResponseWord} (h : firstErrorCode rs = none) (ss : List ResponseWord) :
    firstErrorCode (rs ++ ss) = firstErrorCode ss := by
  induction rs with
  | nil => rfl
  | cons r rs ih =>
    by_cases hr : r.extractLsb' 31 1 = 1#1
    · rw [firstErrorCode, if_pos hr] at h
      cases h
    · rw [firstErrorCode, if_neg hr] at h
      rw [List.cons_append, firstErrorCode, if_neg hr, ih h]

/-! ### FIELD and END in IDLE -/

theorem exec_refused_of_idle {i : Instr} {s : State} (hi : (∃ wt p e v, i = .field wt p e v) ∨ i = .endEncode)
    (hp : s.phase = .idle) : exec i s = .next (refusesWith 14 s) := by
  rcases hi with ⟨wt, p, e, v, rfl⟩ | rfl
  · exact exec_field_of_idle hp wt p e v
  · exact exec_endEncode_of_idle hp

/-- Once the encode is over, the rest of its commands changes nothing of the session. -/
theorem exists_runs_of_idle {is : List Instr} (his : ∀ i ∈ is, (∃ wt p e v, i = .field wt p e v) ∨ i = .endEncode) {s : State}
    (hp : s.phase = .idle) : ∃ t rs, Runs is s t rs ∧ t.phase = .idle := by
  induction is generalizing s with
  | nil => exact ⟨s, [], .nil, hp⟩
  | cons i is ih =>
    obtain ⟨t, rs, hrun, hidle⟩ := ih (fun j hj => his j (List.mem_cons_of_mem i hj)) (s := refusesWith 14 s) hp
    exact ⟨t, _, .cons_refused (exec_refused_of_idle (his i List.mem_cons_self) hp) hrun, hidle⟩

/-- The commands of an encode behind its BEGIN (R170). -/
def fieldsThenEnd (fields : List FieldOperands) : List Instr := fields.map FieldOperands.toInstr ++ [.endEncode]

theorem mem_fieldsThenEnd {fields : List FieldOperands} {i : Instr} (hi : i ∈ fieldsThenEnd fields) :
    (∃ wt p e v, i = .field wt p e v) ∨ i = .endEncode := by
  rcases List.mem_append.mp hi with hfield | hend
  · obtain ⟨f, -, rfl⟩ := List.mem_map.mp hfield
    exact .inl ⟨f.wt, f.present, f.empty, f.value, rfl⟩
  · exact .inr (List.mem_singleton.mp hend)

/-! ### The payload collected so far -/

/-- PLEN and PBUF hold the payload `q`: its length saturated at 256 (R31) and its first 255 bytes (R32, R53). -/
def HoldsPayload (s : State) (q : List Byte) : Prop := s.plen.val = min q.length 256 ∧ s.pbuf = q.take 255

theorem holdsPayload_openEncode (mode : CrcMode) (msgid : MsgId) (s : State) : HoldsPayload (openEncode mode msgid s) [] :=
  ⟨rfl, rfl⟩

/-- A write at PLEN appends to the payload: below 255 bytes it follows them, and at 255 or more it is dropped. -/
theorem memWrite_take (q b : List Byte) : memWrite (min q.length 256) b (q.take 255) = (q ++ b).take 255 := by
  have hbehind : (q.take 255).drop (min q.length 256 + b.length) = [] :=
    List.drop_eq_nil_of_le (by rw [List.length_take]; omega)
  have hbefore : (q.take 255).take (min q.length 256) = q.take 255 :=
    List.take_of_length_le (by rw [List.length_take]; omega)
  rw [memWrite, pbufSize, hbehind, hbefore, List.append_nil, List.take_append, List.take_append, List.take_take, Nat.min_self]
  rcases Nat.le_total q.length 255 with hshort | hlong
  · rw [List.take_of_length_le hshort]
  · rw [List.length_take, Nat.min_eq_left hlong, Nat.sub_self, Nat.sub_eq_zero_of_le hlong]

theorem holdsPayload_appendPayload {s : State} {q : List Byte} (h : HoldsPayload s q) (b : List Byte) :
    HoldsPayload (appendPayload b s) (q ++ b) := by
  obtain ⟨hplen, hpbuf⟩ := h
  refine ⟨?_, ?_⟩
  · rw [appendPayload_plen, plenAfter, List.length_append]
    show min (s.plen.val + b.length) 256 = _
    omega
  · rw [appendPayload_pbuf, hplen, hpbuf, memWrite_take]

/-! ### The fields of an encode -/

/-- The state a FIELD of the bytes `b` leaves in COLLECT. -/
def appendedState (b : List Byte) (s : State) : State :=
  succeedsWith (BitVec.ofNat 24 (plenAfter s.plen b.length).val) (appendPayload b s)

/-- A FIELD that packs keeps the session, so it can stand in front of a run. -/
theorem runs_of_appended {f : FieldOperands} {b : List Byte} {s t : State} {is : List Instr} {rs : List ResponseWord}
    (hp : s.phase = .collect) (hb : packField f.wt f.present f.empty (valueOf f.value) = .ok b)
    (h : Runs is (appendedState b s) t rs) :
    Runs (f.toInstr :: is) s t (successResponse (BitVec.ofNat 24 (plenAfter s.plen b.length).val) :: rs) :=
  .cons (exec_field_of_packField_ok hp hb) ⟨rfl, rfl, rfl, rfl, rfl, rfl⟩ rfl h

/-- Fields that all pack succeed one by one and collect their bytes. -/
theorem exists_runs_of_packFields_ok {fields : List FieldOperands} {p : List Byte} (hpack : packFields fields = .ok p)
    {s : State} {q : List Byte} (hp : s.phase = .collect) (hq : HoldsPayload s q) :
    ∃ t rs, Runs (fields.map FieldOperands.toInstr) s t rs ∧ t.phase = .collect ∧ HoldsPayload t (q ++ p) ∧
      t.msgid = s.msgid ∧ t.mode = s.mode ∧ firstErrorCode rs = none := by
  induction fields generalizing p s q with
  | nil =>
    cases hpack
    exact ⟨s, [], .nil, hp, by rwa [List.append_nil], rfl, rfl, rfl⟩
  | cons f fields ih =>
    obtain ⟨b, p', hb, hrest, rfl⟩ := packFields_cons_ok hpack
    obtain ⟨t, rs, hrun, hcollect, hpayload, hid, hmode, hnone⟩ :=
      ih hrest (s := appendedState b s) hp (holdsPayload_appendPayload hq b)
    exact ⟨t, _, runs_of_appended hp hb hrun, hcollect, by rwa [← List.append_assoc], hid, hmode,
      (firstErrorCode_cons_success _ rs).trans hnone⟩

/-- The first field that does not pack ends the encode with its error. -/
theorem exists_runs_of_packFields_error {fields : List FieldOperands} {e : ErrorKind} (hpack : packFields fields = .error e)
    {s : State} (hp : s.phase = .collect) :
    ∃ t rs, Runs (fieldsThenEnd fields) s t rs ∧ t.phase = .idle ∧ firstErrorCode rs = some e.code := by
  induction fields generalizing s with
  | nil => cases hpack
  | cons f fields ih =>
    rcases packFields_cons_error hpack with he | ⟨b, hb, hrest⟩
    · have hexec : exec f.toInstr s = _ := exec_field_of_packField_error hp he
      obtain ⟨t, rs, hrun, hidle⟩ :=
        exists_runs_of_idle (fun _ => mem_fieldsThenEnd) (is := fieldsThenEnd fields) (s := abandonsWith e.code s) rfl
      exact ⟨t, _, .cons_abandoned hexec hrun, hidle, firstErrorCode_cons_error e.code rs⟩
    · obtain ⟨t, rs, hrun, hidle, herr⟩ := ih hrest (s := appendedState b s) hp
      exact ⟨t, _, runs_of_appended hp hb hrun, hidle, (firstErrorCode_cons_success _ rs).trans herr⟩

/-! ### The END of an encode -/

theorem exists_runs_of_overlong {fields : List FieldOperands} {p : List Byte} (hpack : packFields fields = .ok p)
    (hlong : 255 < p.length) {s : State} (hp : s.phase = .collect) (hs : HoldsPayload s []) :
    ∃ t rs, Runs (fieldsThenEnd fields) s t rs ∧ t.phase = .idle ∧ firstErrorCode rs = some 6 := by
  obtain ⟨t, rs, hrun, hcollect, ⟨hplen, -⟩, -, -, hnone⟩ := exists_runs_of_packFields_ok hpack hp hs
  rw [List.nil_append] at hplen
  have hend : Runs [.endEncode] t (abandonsWith 6 t) [errorResponse 6] :=
    .cons_abandoned (exec_endEncode_of_overlong hcollect (by omega)) .nil
  exact ⟨_, _, hrun.append hend, rfl, (firstErrorCode_append hnone _).trans (firstErrorCode_cons_error 6 [])⟩

theorem endPayload_of_holdsPayload {s : State} {p : List Byte} (h : HoldsPayload s p) (hfits : p.length ≤ 255) :
    endPayload s = p ∧ s.plen.val = p.length := by
  obtain ⟨hplen, hpbuf⟩ := h
  have hlen : s.plen.val = p.length := by omega
  refine ⟨?_, hlen⟩
  rw [endPayload, memRead, hpbuf, hlen, List.drop_zero, List.take_of_length_le hfits, List.take_length]

/-- The frame of R174: the header, payload and checksum of an encode with the payload `p`. -/
def encodedFrame (ext : Config.ExtraExt) (mode : CrcMode) (msgid : MsgId) (p : List Byte) (sysid compid seq : Byte) : List Byte :=
  frameBytes (header10 p.length seq sysid compid msgid) p
    (checksum16 ext mode msgid (header10 p.length seq sysid compid msgid) p)

theorem endFrame_of_holdsPayload {s : State} {p : List Byte} (h : HoldsPayload s p) (hfits : p.length ≤ 255) :
    endFrame s = encodedFrame s.extraExt s.mode s.msgid p s.sysid s.compid s.seq := by
  obtain ⟨hpayload, hlen⟩ := endPayload_of_holdsPayload h hfits
  rw [endFrame, endChecksum, endHeader, hpayload, hlen, encodedFrame]

/-! ### The function of R174, case by case -/

section
variable {ext : Config.ExtraExt} {mode : CrcMode} {msgid : MsgId} {fields : List FieldOperands} {sysid compid seq : Byte}

theorem encodeMessage_of_unknown :
    encodeMessage ext false mode msgid fields sysid compid seq = (.error .unknownMessageId, seq) := rfl

theorem encodeMessage_of_error {e : ErrorKind} (h : packFields fields = .error e) :
    encodeMessage ext true mode msgid fields sysid compid seq = (.error e, seq) := by
  simp [encodeMessage, h]

theorem encodeMessage_of_overlong {p : List Byte} (h : packFields fields = .ok p) (hlong : 255 < p.length) :
    encodeMessage ext true mode msgid fields sysid compid seq = (.error .payloadTooLarge, seq) := by
  simp [encodeMessage, h, maxPayload, hlong]

theorem encodeMessage_of_fits {p : List Byte} (h : packFields fields = .ok p) (hfits : p.length ≤ 255) :
    encodeMessage ext true mode msgid fields sysid compid seq =
      (.ok (encodedFrame ext mode msgid p sysid compid seq), seq + 1) := by
  simp [encodeMessage, h, maxPayload, Nat.not_lt.mpr hfits, encodedFrame]

end

/-! ### A whole encode -/

/-- From `s` the encode has ended in `t` with the responses `rs` and the result `r` of the function: the frame and the new SEQ, or
the error and nothing emitted. -/
def EndsWith (r : Except ErrorKind (List Byte) × Byte) (s t : State) (rs : List ResponseWord) : Prop :=
  t.inputs = s.inputs ∧ t.phase = .idle ∧ t.sysid = s.sysid ∧ t.compid = s.compid ∧ t.responses = s.responses ++ rs ∧
    t.seq = r.2 ∧
    match r.1 with
    | .ok frame => t.out = s.out ++ [frame] ∧ firstErrorCode rs = none
    | .error e => t.out = s.out ∧ firstErrorCode rs = some e.code

theorem endsWith_error {is : List Instr} {s t : State} {rs : List ResponseWord} {e : ErrorKind} (h : Runs is s t rs)
    (hidle : t.phase = .idle) (herr : firstErrorCode rs = some e.code) : EndsWith (.error e, s.seq) s t rs :=
  ⟨h.keeps.inputs, hidle, h.keeps.sysid, h.keeps.compid, h.responses, h.keeps.seq, h.keeps.out, herr⟩

theorem encodeCommands_eq (known : Bool) (mode : CrcMode) (msgid : MsgId) (fields : List FieldOperands) :
    encodeCommands known mode msgid fields = .beginEncode known mode msgid :: fieldsThenEnd fields := rfl

theorem wf_of_mem_encodeCommands {known : Bool} {mode : CrcMode} {msgid : MsgId} {fields : List FieldOperands} {i : Instr}
    (hi : i ∈ encodeCommands known mode msgid fields) : i.wf = true := by
  rcases List.mem_cons.mp hi with rfl | htail
  · rfl
  · obtain ⟨wt, p, e, v, rfl⟩ | rfl := mem_fieldsThenEnd htail <;> rfl

section
variable {s : State}

/-- The state a BEGIN of a known id leaves. -/
def begunState (mode : CrcMode) (msgid : MsgId) (s : State) : State :=
  succeedsWith ((crcExtra s.extraExt msgid).setWidth 24) (openEncode mode msgid s)

/-- BEGIN keeps the session, so a run behind it is a run of the whole encode. -/
theorem runs_of_begun (hc : s.configured = true) (hp : s.phase = .idle) {mode : CrcMode} {msgid : MsgId} {is : List Instr}
    {t : State} {rs : List ResponseWord} (h : Runs is (begunState mode msgid s) t rs) :
    Runs (.beginEncode true mode msgid :: is) s t (successResponse ((crcExtra s.extraExt msgid).setWidth 24) :: rs) :=
  .cons (exec_beginEncode_of_known hc hp mode msgid) ⟨rfl, rfl, rfl, rfl, rfl, rfl⟩ rfl h

theorem encode_of_unknown (hc : s.configured = true) (hp : s.phase = .idle) (mode : CrcMode) (msgid : MsgId)
    (fields : List FieldOperands) :
    ∃ t rs, execAll (encodeCommands false mode msgid fields) s = .next t ∧ EndsWith (.error .unknownMessageId, s.seq) s t rs := by
  obtain ⟨t, rs, htail, hidle⟩ :=
    exists_runs_of_idle (fun _ => mem_fieldsThenEnd) (is := fieldsThenEnd fields) (s := refusesWith 2 s) hp
  have hrun := htail.cons_refused (exec_beginEncode_of_unknown hc hp mode msgid)
  exact ⟨t, _, hrun.run, endsWith_error hrun hidle (firstErrorCode_cons_error 2 rs)⟩

/-- A tail that fails with `e` makes the whole encode fail with `e`. -/
theorem encode_of_failing_tail (hc : s.configured = true) (hp : s.phase = .idle) {mode : CrcMode} {msgid : MsgId}
    {fields : List FieldOperands} {e : ErrorKind}
    (h : ∃ t rs, Runs (fieldsThenEnd fields) (begunState mode msgid s) t rs ∧ t.phase = .idle ∧
      firstErrorCode rs = some e.code) :
    ∃ t rs, execAll (encodeCommands true mode msgid fields) s = .next t ∧ EndsWith (.error e, s.seq) s t rs := by
  obtain ⟨t, rs, htail, hidle, herr⟩ := h
  have hrun := runs_of_begun hc hp htail
  exact ⟨t, _, hrun.run, endsWith_error hrun hidle ((firstErrorCode_cons_success _ rs).trans herr)⟩

/-- BEGIN and fields that all pack leave COLLECT with the payload that `packFields` gives. -/
theorem exists_runs_up_to_end (hc : s.configured = true) (hp : s.phase = .idle) (mode : CrcMode) (msgid : MsgId)
    {fields : List FieldOperands} {p : List Byte} (hpack : packFields fields = .ok p) :
    ∃ u rs, Runs (.beginEncode true mode msgid :: fields.map FieldOperands.toInstr) s u rs ∧ u.phase = .collect ∧
      HoldsPayload u p ∧ u.msgid = msgid ∧ u.mode = mode ∧ firstErrorCode rs = none := by
  obtain ⟨u, rs, hfields, hcollect, hpayload, hid, hmode, hnone⟩ :=
    exists_runs_of_packFields_ok hpack (s := begunState mode msgid s) rfl (holdsPayload_openEncode mode msgid s)
  exact ⟨u, _, runs_of_begun hc hp hfields, hcollect, hpayload, hid, hmode, (firstErrorCode_cons_success _ rs).trans hnone⟩

theorem encode_of_fits (hc : s.configured = true) (hp : s.phase = .idle) (mode : CrcMode) (msgid : MsgId)
    {fields : List FieldOperands} {p : List Byte} (hpack : packFields fields = .ok p) (hfits : p.length ≤ 255) :
    ∃ t rs, execAll (encodeCommands true mode msgid fields) s = .next t ∧
      EndsWith (.ok (encodedFrame s.extraExt mode msgid p s.sysid s.compid s.seq), s.seq + 1) s t rs := by
  obtain ⟨u, rs, ⟨hrun, hkeeps, hresponses⟩, hcollect, hpayload, rfl, rfl, hnone⟩ :=
    exists_runs_up_to_end hc hp mode msgid hpack
  obtain ⟨-, hplen⟩ := endPayload_of_holdsPayload hpayload hfits
  have hend : exec .endEncode u = .next (endState u) := exec_endEncode_of_fits hcollect (by omega)
  have hframe : endFrame u = encodedFrame s.extraExt u.mode u.msgid p s.sysid s.compid s.seq := by
    rw [endFrame_of_holdsPayload hpayload hfits, hkeeps.extraExt, hkeeps.sysid, hkeeps.compid, hkeeps.seq]
  refine ⟨endState u, rs ++ [successResponse (BitVec.ofNat 24 (13 + u.plen.val))], ?run, hkeeps.inputs, rfl, hkeeps.sysid,
    hkeeps.compid, ?responses, congrArg (· + 1) hkeeps.seq, ?out, ?noError⟩
  case run =>
    rw [encodeCommands_eq, fieldsThenEnd, ← List.cons_append, execAll_append hrun, execAll_cons hend]
    rfl
  case responses =>
    rw [← List.append_assoc, ← hresponses]
    rfl
  case out => rw [endState_out, hkeeps.out, hframe]
  case noError =>
    rw [firstErrorCode_append hnone, firstErrorCode_cons_success]
    rfl

/-- The commands of an encode, executed in an idle session, end with what the function gives. -/
theorem encode_endsWith_encodeMessage (hc : s.configured = true) (hp : s.phase = .idle) (known : Bool) (mode : CrcMode)
    (msgid : MsgId) (fields : List FieldOperands) :
    ∃ t rs, execAll (encodeCommands known mode msgid fields) s = .next t ∧
      EndsWith (encodeMessage s.extraExt known mode msgid fields s.sysid s.compid s.seq) s t rs := by
  cases known with
  | false =>
    rw [encodeMessage_of_unknown]
    exact encode_of_unknown hc hp mode msgid fields
  | true =>
    cases hpack : packFields fields with
    | error e =>
      rw [encodeMessage_of_error hpack]
      exact encode_of_failing_tail hc hp (exists_runs_of_packFields_error hpack rfl)
    | ok p =>
      rcases Nat.lt_or_ge 255 p.length with hlong | hfits
      · rw [encodeMessage_of_overlong hpack hlong]
        exact encode_of_failing_tail hc hp
          (exists_runs_of_overlong hpack hlong rfl (holdsPayload_openEncode mode msgid s))
      · rw [encodeMessage_of_fits hpack hfits]
        exact encode_of_fits hc hp mode msgid hpack hfits

end

theorem decode_of_encode_eq {w : CommandWord} {i : Instr} (hwf : i.wf = true) (h : encode i = w) : decode w = .ok i :=
  h ▸ decode_encode hwf

end Sys2Proof.Machine

section
open Sys2Proof Sys2Proof.Machine

/-- Settles O47, by induction on the list: each step takes one word, decodes it to its instruction (O11) and executes it, which
does not depend on the words still to come. -/
theorem presentedWordsRunInOrder : Obligations.PresentedWordsRunInOrder := fun _ _ _ => runSteps_presented

/-- Settles O48: stepping is executing the commands (O47), and those collect the payload the function packs, up to the first error
or the END that builds the function's frame. -/
theorem encodeRunMatchesEncodeFunction : Obligations.EncodeRunMatchesEncodeFunction := by
  intro known mode msgid fields s rest _ hc hp hin
  obtain ⟨t, hall, hsteps⟩ := runSteps_presented (fun _ => wf_of_mem_encodeCommands) hin
  obtain ⟨t', rs, hrun, hends⟩ := encode_endsWith_encodeMessage (s := withInputs rest s) hc hp known mode msgid fields
  cases hrun.symm.trans hall
  exact ⟨t, rs, hsteps, hends⟩

/-- Settles O1: the values are those `State.reset` names, and STATUS is put together from them. -/
theorem resetHoldsSpecValues : Obligations.ResetHoldsSpecValues :=
  ⟨rfl, rfl, rfl, rfl, rfl, rfl, rfl, rfl, rfl, rfl, rfl, rfl, exec_rdReg_of_readable (by decide) (.inr (by decide))⟩

/-- Settles O2: the step is `hardwareReset`, whatever the state. -/
theorem hardwareResetBetweenCommands : Obligations.HardwareResetBetweenCommands := fun _ _ hin =>
  ⟨_, step_of_reset hin, rfl, rfl, rfl, rfl, rfl, rfl, rfl, rfl, rfl, rfl, rfl, rfl, rfl⟩

/-- Settles O3: after reset the block is idle and empty, and EXTRA_EXT is empty. -/
theorem resetMeetsBlockInvariant : Obligations.ResetMeetsBlockInvariant :=
  ⟨fun _ => ⟨rfl, rfl⟩, nofun, reset_wf, rfl, legalLasterr_zero, rfl, rfl, List.nodup_nil⟩

/-- Settles O7: with nothing to take the step is the waiting one. -/
theorem waitingStepChangesNothing : Obligations.WaitingStepChangesNothing := fun _ => step_of_nil

/-- Settles O10: each example word is the encoding of its command, and decoding inverts encoding (O11). -/
theorem specExampleWordsDecode : Obligations.SpecExampleWordsDecode :=
  ⟨decode_of_encode_eq rfl (by decide), decode_of_encode_eq rfl (by decide), decode_of_encode_eq rfl (by decide),
    decode_of_encode_eq rfl (by decide), decode_of_encode_eq rfl (by decide), decode_of_encode_eq rfl (by decide),
    decode_of_encode_eq rfl (by decide), decode_of_encode_eq rfl (by decide), decode_of_encode_eq rfl (by decide)⟩

end
